-- ==== Sys2Proof/Word.lean ====
section
/-! DEFINITION. The value widths of the S-DES core.

Rule R7 (00_scope.md) fixes every width, and R44 forbids widening or truncating a value, so each width is a
`BitVec` of exactly that many bits. Bit `i` of `v` is `v.getLsbD i`, the most significant bit has the highest index (R9),
`v.extractLsb' lo len` is the slice `v[lo + len - 1 : lo]`, and `a ++ b` puts `a` in the high positions (R10). -/

namespace Sys2Proof

/-- A request or a response word (R70, R80): 32 bits, delivered whole (R41). -/
abbrev Word := BitVec 32

/-- A master key (R7 KEY_W, R60): every 10-bit value is valid. -/
abbrev Key := BitVec 10

/-- A block or a subkey (R7 BLK_W and SK_W, R61, R62). -/
abbrev Byte := BitVec 8

/-- Half of a 10-bit value (R7 KH_W). -/
abbrev KeyHalf := BitVec 5

/-- Half of a block, and the input of an S-box (R7 BH_W and SBOX_IN_W). -/
abbrev Nibble := BitVec 4

/-- A row or column index and the output of an S-box (R7 SBOX_OUT_W, R63). -/
abbrev Pair := BitVec 2

end Sys2Proof
end

