-- ==== Sys2Proof/Config.lean ====
section
/-! DEFINITION. What an S-DES core is built with: the shape of its eight constant tables (R26, 10_state.md).

The CONTENTS stand in Machine/Rom.lean. The spec leaves no value of the core open, so there is no free value here. -/

namespace Sys2Proof

/-- A permutation table in index form (R12): entry `j` is the source bit that output bit `m - 1 - j` takes.
Its `m` entries lie in `0 .. n - 1`, so applying it is total. -/
abbrev PermTable (n m : Nat) := Vector (Fin n) m

/-- An S-box (R15): four rows of four 2-bit entries. -/
abbrev SBox := Vector (Vector Pair 4) 4

/-- The constant tables of the core, with the arities of the table of R26. -/
structure Rom where
  /-- R100, used by the key schedule. -/
  p10 : PermTable 10 10
  /-- R105, used by the key schedule only (90_conflicts.md C4). -/
  p8 : PermTable 10 8
  /-- R130. -/
  ip : PermTable 8 8
  /-- R132, the inverse of `ip`. -/
  ipInv : PermTable 8 8
  /-- R133, an expansion: a source bit may be selected more than once. -/
  ep : PermTable 4 8
  /-- R141, a 4-to-4 permutation (90_conflicts.md C3). -/
  p4 : PermTable 4 4
  /-- R138. -/
  s0 : SBox
  /-- R139. -/
  s1 : SBox
  deriving DecidableEq, Repr

end Sys2Proof
end

