-- ==== Sys2Proof/Machine/Bits.lean ====
section
/-! DEFINITION. The datapath primitives every step of the core is made of: permutation, rotation and table lookup
(R12, R14, R15). R11 says that the core uses nothing else but the exclusive-or. -/

namespace Sys2Proof

/-- `apply(T, v)` (R12): output bit `m - 1 - j` is source bit `t_j`. -/
def applyTable {n m : Nat} (t : PermTable n m) (v : BitVec n) : BitVec m :=
  BitVec.ofFnBE fun j => v.getLsb (t.get j)

/-- `rol5(x, s)` (R14): the cyclic left rotation of one 5-bit half, for `s` in 1, 2. -/
def rol5 (x : KeyHalf) (s : Nat) : KeyHalf := (x <<< s) ||| (x >>> (5 - s))

/-- The upper half of a 10-bit value, bits [9:5] (R17, R102). -/
def leftHalf (v : BitVec 10) : KeyHalf := v.extractLsb' 5 5
/-- The lower half of a 10-bit value, bits [4:0] (R17, R102). -/
def rightHalf (v : BitVec 10) : KeyHalf := v.extractLsb' 0 5
/-- The upper half of an 8-bit value, bits [7:4] (R17, R131). -/
def upperHalf (v : Byte) : Nibble := v.extractLsb' 4 4
/-- The lower half of an 8-bit value, bits [3:0] (R17, R131). -/
def lowerHalf (v : Byte) : Nibble := v.extractLsb' 0 4

/-- The row index of an S-box input (R63, R137): the outer bits, bit 3 the more significant. -/
def sboxRow (x : Nibble) : Pair := BitVec.ofBool (x.getLsbD 3) ++ BitVec.ofBool (x.getLsbD 0)
/-- The column index of an S-box input (R63, R137): the inner bits, bit 2 the more significant. -/
def sboxCol (x : Nibble) : Pair := BitVec.ofBool (x.getLsbD 2) ++ BitVec.ofBool (x.getLsbD 1)

/-- `S[r][c]` (R15). -/
def sboxEntry (s : SBox) (r c : Pair) : Pair := (s.get r.toFin).get c.toFin

end Sys2Proof
end

