-- ==== Sys2Proof/Syntax.lean ====
section
/-! DEFINITION. The instructions of the core: its two operations (R3, R73). -/

namespace Sys2Proof

/-- One constructor per row of spec/opcode_table.json. The operands are unsigned fields taken as they stand (R74), at
the exact width the request word gives them (R71, R72). -/
inductive Instr where
  /-- `derive_subkeys`: format KS (R71), meaning R110. -/
  | ks (key : Key)
  /-- `transform`: format XF (R72), meaning R170. `ska` is the subkey of round 1 and `skb` that of round 2. -/
  | xf (blk ska skb : Byte)
  deriving DecidableEq, Repr

end Sys2Proof
end

