-- ==== Sys2Proof/Decode.lean ====
section
/-! DEFINITION. The request word: its fields, the decoder of R77 and the encoder (R70 to R77). -/

namespace Sys2Proof

/-- The two request-format errors (R200). The decoder rejects by these names and by no other. -/
inductive RequestError where
  /-- ERR_OPCODE (R75, R201): `REQ[31:28]` is in 0x2 to 0xF. -/
  | opcode
  /-- ERR_RESERVED (R76, R202): the reserved bits of KS or of XF are not all zero. -/
  | reserved
  deriving DecidableEq, Repr

/-- The fields of a request word (R70 to R72). -/
def reqOp (w : Word) : BitVec 4 := w.extractLsb' 28 4
/-- KS, `REQ[27:10]`: must be zero. -/
def reqKsReserved (w : Word) : BitVec 18 := w.extractLsb' 10 18
/-- KS, `REQ[9:0]`. -/
def reqKey (w : Word) : Key := w.extractLsb' 0 10
/-- XF, `REQ[27:24]`: must be zero. -/
def reqXfReserved (w : Word) : BitVec 4 := w.extractLsb' 24 4
/-- XF, `REQ[23:16]`. -/
def reqSkb (w : Word) : Byte := w.extractLsb' 16 8
/-- XF, `REQ[15:8]`. -/
def reqSka (w : Word) : Byte := w.extractLsb' 8 8
/-- XF, `REQ[7:0]`. -/
def reqBlk (w : Word) : Byte := w.extractLsb' 0 8

/-- The decoder (R77), total on every 32-bit word. The opcode is looked at first, so a reserved opcode is ERR_OPCODE
whatever the other bits hold (R203). -/
def decode (w : Word) : Except RequestError Instr :=
  if reqOp w = 0x0#4 then
    if reqKsReserved w = 0#18 then .ok (.ks (reqKey w)) else .error .reserved
  else if reqOp w = 0x1#4 then
    if reqXfReserved w = 0#4 then .ok (.xf (reqBlk w) (reqSka w) (reqSkb w)) else .error .reserved
  else .error .opcode

/-- The encoder: the request word of an instruction (R71, R72), reserved bits zero. -/
def encode : Instr → Word
  | .ks key => 0x0#4 ++ 0#18 ++ key
  | .xf blk ska skb => 0x1#4 ++ 0x0#4 ++ skb ++ ska ++ blk

/-- The request word of an opcode-table row's bits: `w` cut to `nbits` bits, every bit above them zero. A request
is delivered whole and is exactly 32 bits long (R41, R70), so there is no byte order to apply. -/
def requestWord (nbits w : Nat) : Word := BitVec.ofNat 32 (w % 2 ^ nbits)

/-- What the decoder reads from a row's bits, `none` where it rejects. -/
def decodeTableWord (nbits w : Nat) : Option Instr :=
  match decode (requestWord nbits w) with
  | .ok i => some i
  | .error _ => none

end Sys2Proof
end

