-- ==== Sys2Proof/Machine/Flags.lean ====
section
/-! DEFINITION. The response word and its STATUS field (R80 to R84).

The core has no flags and no condition codes (R23). STATUS is a field of one response and no later request
reads it; this file holds all there is to compute about it. -/

namespace Sys2Proof.Machine

/-- STATUS = OK (R81). -/
def statusOk : BitVec 2 := 0b00#2
/-- STATUS of an error response (R81, R201, R202). -/
def errorStatus : RequestError → BitVec 2
  | .opcode => 0b01#2
  | .reserved => 0b10#2
/-- The STATUS value the core never produces (R81). -/
def statusUnused : BitVec 2 := 0b11#2

/-- `RSP[31:30]` (R81). -/
def rspStatus (w : Word) : BitVec 2 := w.extractLsb' 30 2
/-- `RSP[29:16]`, always zero (R81). -/
def rspZero (w : Word) : BitVec 14 := w.extractLsb' 16 14
/-- `RSP[15:0]` (R81). -/
def rspData (w : Word) : BitVec 16 := w.extractLsb' 0 16
/-- `RSP[15:8]`, K1 in a KS response (R82). -/
def rspDataHigh (w : Word) : Byte := w.extractLsb' 8 8
/-- `RSP[7:0]`, K2 in a KS response (R82) and OUT in an XF response (R83). -/
def rspDataLow (w : Word) : Byte := w.extractLsb' 0 8

/-- The layout of R81. -/
def responseWord (status : BitVec 2) (data : BitVec 16) : Word := status ++ 0#14 ++ data

/-- The KS response (R82). -/
def ksResponse (k1 k2 : Byte) : Word := responseWord statusOk (k1 ++ k2)
/-- The XF response (R83). -/
def xfResponse (out : Byte) : Word := responseWord statusOk (0#8 ++ out)
/-- The response to a malformed request (R84). -/
def errorResponse (e : RequestError) : Word := responseWord (errorStatus e) 0#16

/-- A word laid out as R81 and R84 say every response is: a STATUS the core produces, bits [29:16] zero, and no data
beside an error. -/
def isResponse (w : Word) : Bool :=
  rspStatus w != statusUnused && rspZero w == 0#14 && (rspStatus w == statusOk || rspData w == 0#16)

end Sys2Proof.Machine
end

