-- ==== Sys2Proof/Machine/Rom.lean ====
section
/-! DEFINITION. The contents of the eight constant tables (R26), in the index form of R12.

The source gives no entry of any table; the spec takes the published S-DES tables (92_eei_decisions.md D7,
93_implementation_defined.md G1, G2). UNVERIFIED against the repository's code, unsafe if wrong: log entry 1. -/

namespace Sys2Proof

/-- R100. -/
def Rom.publishedP10 : PermTable 10 10 := #v[7, 5, 8, 3, 6, 0, 9, 1, 2, 4]
/-- R105. -/
def Rom.publishedP8 : PermTable 10 8 := #v[4, 7, 3, 6, 2, 5, 0, 1]
/-- R130. -/
def Rom.publishedIp : PermTable 8 8 := #v[6, 2, 5, 7, 4, 0, 3, 1]
/-- R132. -/
def Rom.publishedIpInv : PermTable 8 8 := #v[4, 7, 5, 3, 1, 6, 0, 2]
/-- R133. -/
def Rom.publishedEp : PermTable 4 8 := #v[0, 3, 2, 1, 2, 1, 0, 3]
/-- R141. -/
def Rom.publishedP4 : PermTable 4 4 := #v[2, 0, 1, 3]
/-- R138, rows 0 to 3 of columns 0 to 3. -/
def Rom.publishedS0 : SBox := #v[#v[1, 0, 3, 2], #v[3, 2, 1, 0], #v[0, 2, 1, 3], #v[3, 1, 3, 2]]
/-- R139, rows 0 to 3 of columns 0 to 3. -/
def Rom.publishedS1 : SBox := #v[#v[0, 1, 2, 3], #v[2, 0, 1, 3], #v[3, 0, 1, 0], #v[2, 1, 0, 3]]

/-- The ROM of the core at every step and after every reset (R26, R231). -/
def Rom.published : Rom where
  p10 := Rom.publishedP10
  p8 := Rom.publishedP8
  ip := Rom.publishedIp
  ipInv := Rom.publishedIpInv
  ep := Rom.publishedEp
  p4 := Rom.publishedP4
  s0 := Rom.publishedS0
  s1 := Rom.publishedS1

end Sys2Proof
end

