-- ==== Sys2Proof/Machine/State.lean ====
section
/-! DEFINITION. The state of the machine, as plain data: the core's constant tables (R26), the hosts that use the core
with all the cells the spec gives them (R22, R25, R208), the requests and responses between the two (R51, R231), and the
inputs still to come, which say what happens next and in which order (R50, R230).

The core itself keeps nothing that changes (R21 to R24, R28). What a program can observe, and everything a claim about a session is about, is
on the host's side. -/

namespace Sys2Proof.Machine

/-- The host faults and rejects of 60_exceptions.md. They are RECORDED in the host that takes them (R205 to R208), they
do not stop the machine: the core and the other hosts go on. -/
inductive HostFault where
  /-- R205: a subkey cell is read while unwritten. -/
  | subkeyUnwritten
  /-- R206: a session pseudo-instruction takes a response whose STATUS is not OK. -/
  | coreError
  /-- R207: a master key outside 0 to 1023 is supplied. -/
  | keyOutOfRange
  deriving DecidableEq, Repr

/-- One line of a host's request list, assembled (R85, R86). The operands of `ks` and `xf` have the widths the
assembler insists on; the key of `session` is the integer the caller supplies (R177), which may lie outside 0 to 1023 on
either side (R207). -/
inductive Line where
  /-- `ks KEY`, a raw KS request. -/
  | ks (key : Key)
  /-- `xf BLK, SKA, SKB`, a raw XF request. -/
  | xf (blk ska skb : Byte)
  /-- `.word W`, any 32-bit word unchanged. -/
  | word (w : Word)
  /-- `session KEY`: starts a session. -/
  | session (key : Int)
  /-- `enc BLK`: one block through XF with the session's subkeys in forward order. -/
  | enc (blk : Byte)
  /-- `dec BLK`: the same with the subkeys in reverse order. -/
  | dec (blk : Byte)
  deriving DecidableEq, Repr

/-- What the host that issued a request will do with its response. -/
inductive Purpose where
  /-- A `ks`, `xf` or `.word` line: the response is taken as it comes (R206). -/
  | raw
  /-- The KS request that started the session of this key (R176). -/
  | session (key : Key)
  /-- An `enc` or `dec` line (R86). -/
  | block
  deriving DecidableEq, Repr

/-- A request that has been issued and not yet answered. -/
structure Request where
  purpose : Purpose
  word : Word
  deriving DecidableEq, Repr

/-- A response that has been produced and not yet taken by the host it goes to (R51). -/
structure Response where
  purpose : Purpose
  word : Word
  deriving DecidableEq, Repr

/-- What a host appends to its list `out` (95_test_vectors.md section 3). DEDUCED, unsafe if read wrongly: log entry 12. -/
inductive OutItem where
  /-- The result byte of `enc` or `dec`. -/
  | byte (b : Byte)
  /-- The whole response word of a raw line. -/
  | response (w : Word)
  deriving DecidableEq, Repr

/-- One host (R20, R215): its list of lines and its own counter (R22), its session cells (R25), its fault record
(R208), the result list, and its requests and responses in the order it issued them (R51), oldest first. -/
structure HostAgent where
  /-- The request list the host runs, given from outside. -/
  prog : List Line
  /-- The position in it: starts at 0, plus 1 per request (R22). -/
  pc : Nat
  /-- `host.K`, `none` while unwritten (R25). -/
  key : Option Key
  /-- `host.SK1`, `none` while unwritten (R25). -/
  sk1 : Option Byte
  /-- `host.SK2`, `none` while unwritten (R25). -/
  sk2 : Option Byte
  /-- The host fault record, `none` while empty (R208, R231). -/
  fault : Option HostFault
  /-- Issued and not yet answered. -/
  requests : List Request
  /-- Answered and not yet taken: the responses in flight. -/
  responses : List Response
  /-- The results, first one first (R42). -/
  out : List OutItem
  deriving DecidableEq, Repr

/-- A host at the start of its list (R231): counter 0, every cell unwritten, no fault, nothing in flight. -/
def HostAgent.start (prog : List Line) : HostAgent where
  prog := prog
  pc := 0
  key := none
  sk1 := none
  sk2 := none
  fault := none
  requests := []
  responses := []
  out := []

/-- What happens next. The spec lets hosts and core act in any interleaving (R50); the list of inputs is one
interleaving, written down (DESIGN CHOICE, safe: log entry 5). `h` is a host's position in `State.hosts`; the core never sees it (R215). -/
inductive Input where
  /-- Host `h` issues its next line. -/
  | issue (h : Nat)
  /-- The core services the oldest unanswered request of host `h`, in one atomic step (R20, R45). -/
  | serve (h : Nat)
  /-- Host `h` takes its oldest response. -/
  | take (h : Nat)
  /-- Reset is asserted (R230). -/
  | reset
  /-- One more host begins to use the core, with this list of lines (R215). -/
  | connect (prog : List Line)
  deriving DecidableEq, Repr

/-- The whole machine. There is no register, flag, control register, mode, program counter of the core, memory, cache
or reservation: R21 to R24, R28, R40, R53, R55 and R211 say that none exists. -/
structure State where
  /-- The core's constant tables (R26). Nothing writes them (R24). DESIGN CHOICE, safe: they are a field (log entry 2). -/
  rom : Rom
  /-- The hosts. -/
  hosts : List HostAgent
  /-- The inputs still to come, the next one first. -/
  inputs : List Input
  deriving DecidableEq, Repr

/-- Why a step can stop the machine. -/
inductive Fault where
  /-- Raised by `step` when the next input names a host that does not exist. No rule gives such an input an effect and
  no interleaving of the machine's agents contains one (log entry 5). SAFE: the model stops and says nothing. -/
  | noSuchHost
  deriving DecidableEq, Repr

/-- Why a step can have no meaning. -/
inductive Refusal where
  /-- An instruction the model gives no meaning. Raised by nobody: both instructions have theirs. SAFE. -/
  | notModelled (mnemonic : String)
  /-- Raised by `step` when a host takes a response with STATUS = 11, which the core never produces (R81) and for which
  a host has no rule (93_implementation_defined.md I6, log entry 11). SAFE: the model stops and says nothing. -/
  | statusNeverProduced
  deriving DecidableEq, Repr

/-- The machine right after reset (R230, R231): the tables hold their constant contents, and one host stands at the start of an empty
list with all its cells unwritten. DESIGN CHOICE: one host, no line, no input (log entry 3, unsafe for
a statement that would rest on it). -/
def State.reset : State where
  rom := Rom.published
  hosts := [HostAgent.start []]
  inputs := []

end Sys2Proof.Machine
end

