-- ==== Sys2Proof/Machine/Ops.lean ====
section
/-! DEFINITION. The shared operations over the state: finding the request at hand, answering it, answering it with an error, and
changing one host.

The core has no trap mechanism (R204): an error response is the whole effect of an error, nothing is saved, no mode
or mask changes and control goes nowhere, so `State.respondError` is the one operation that stands where another machine
takes an exception. No return from it exists. There is no memory and no register file to operate on (R21, R40). -/

namespace Sys2Proof.Machine

/-- Moves past the input that has just had its effect. -/
def State.consume (s : State) : State := { s with inputs := s.inputs.tail }

/-- `s` with host `h` changed by `f`, every other host untouched. -/
def State.modifyHost (s : State) (h : Nat) (f : HostAgent → HostAgent) : State :=
  { s with hosts := s.hosts.modify h f }

/-- The request the core takes in this step, with the host it came from: the oldest unanswered request of
the host that the next input has serviced (R20, R51). -/
def State.current (s : State) : Option (Nat × Request) :=
  match s.inputs with
  | .serve h :: _ =>
    match s.hosts[h]? with
    | some host =>
      match host.requests with
      | r :: _ => some (h, r)
      | [] => none
    | none => none
  | _ => none

/-- The host's oldest request gets its response: it leaves the unanswered requests, and the response joins those the
host has still to take, behind the earlier ones (R51). -/
def HostAgent.answer (host : HostAgent) (rsp : Word) : HostAgent :=
  match host.requests with
  | r :: rest =>
    { host with requests := rest, responses := host.responses ++ [{ purpose := r.purpose, word := rsp }] }
  | [] => host

/-- `rsp <- v` (R16): the whole response word of the current request, delivered in this one step to the host that issued it
(R45, R51). Where there is no request to answer nothing happens; `step` never gets there. DESIGN CHOICE,
safe: log entry 8. -/
def State.respond (s : State) (rsp : Word) : State :=
  match s.current with
  | some (h, _) => (s.modifyHost h (·.answer rsp)).consume
  | none => s

/-- `raise Error(code)` (R16): the error response ends the request and is the whole effect (R84, R204). -/
def State.respondError (s : State) (e : RequestError) : State := s.respond (errorResponse e)

/-- Records a host fault or reject (R205 to R207). A record already there is never cleared nor replaced (R208). -/
def HostAgent.record (host : HostAgent) (f : HostFault) : HostAgent :=
  { host with fault := host.fault <|> some f }

/-- The host puts a request into its queue and moves to its next line (R22). -/
def HostAgent.send (host : HostAgent) (purpose : Purpose) (w : Word) : HostAgent :=
  { host with requests := host.requests ++ [{ purpose := purpose, word := w }], pc := host.pc + 1 }

end Sys2Proof.Machine
end

