-- ==== Sys2Proof/Machine/KeySchedule.lean ====
section
/-! DEFINITION. The key schedule unit and the meaning of KS (40_key_schedule.md). -/

namespace Sys2Proof.Machine

/-- The datapath values of one KS request, under the names of R27. They are wires, not state. -/
structure KsPath where
  p : BitVec 10
  kl0 : KeyHalf
  kr0 : KeyHalf
  kl1 : KeyHalf
  kr1 : KeyHalf
  j1 : BitVec 10
  k1 : Byte
  kl2 : KeyHalf
  kr2 : KeyHalf
  j2 : BitVec 10
  k2 : Byte
  deriving DecidableEq, Repr

/-- The pseudocode of R110, with every intermediate value. The second rotation starts from the halves already rotated
once (R107). -/
def ksPath (rom : Rom) (key : Key) : KsPath :=
  let p := applyTable rom.p10 key
  let kl0 := leftHalf p
  let kr0 := rightHalf p
  let kl1 := rol5 kl0 1
  let kr1 := rol5 kr0 1
  let j1 := kl1 ++ kr1
  let kl2 := rol5 kl1 2
  let kr2 := rol5 kr1 2
  let j2 := kl2 ++ kr2
  { p, kl0, kr0, kl1, kr1, j1, k1 := applyTable rom.p8 j1, kl2, kr2, j2, k2 := applyTable rom.p8 j2 }

/-- `derive_subkeys` (R3, R110): the pair (K1, K2). -/
def deriveSubkeys (rom : Rom) (key : Key) : Byte × Byte := ((ksPath rom key).k1, (ksPath rom key).k2)

/-- The response to a KS request (R82, R110). -/
def ksAnswer (rom : Rom) (key : Key) : Word := ksResponse (deriveSubkeys rom key).1 (deriveSubkeys rom key).2

/-- KS (R110): the subkeys go into the response and nothing in the core is written. -/
def execKs (key : Key) (s : State) : Host.Outcome State Fault Refusal := .next (s.respond (ksAnswer s.rom key))

end Sys2Proof.Machine
end

