-- ==== Sys2Proof/Machine/Feistel.lean ====
section
/-! DEFINITION. The Feistel engine unit: the round function F, one round and the half-swap (41_feistel_round.md). -/

namespace Sys2Proof.Machine

/-- The datapath values inside F, under the names of R27. -/
structure FPath where
  e : Byte
  x : Byte
  xa : Nibble
  xb : Nibble
  r0 : Pair
  c0 : Pair
  r1 : Pair
  c1 : Pair
  s0 : Pair
  s1 : Pair
  c : Nibble
  fo : Nibble
  deriving DecidableEq, Repr

/-- The pseudocode of R142 with every intermediate value: EP (R134), the subkey (R135), the upper half to S0 and the lower to
S1 (R136), row and column (R137), S0's output high (R140), P4 (R141). -/
def fPath (rom : Rom) (h : Nibble) (sk : Byte) : FPath :=
  let e := applyTable rom.ep h
  let x := e ^^^ sk
  let xa := upperHalf x
  let xb := lowerHalf x
  let r0 := sboxRow xa
  let c0 := sboxCol xa
  let r1 := sboxRow xb
  let c1 := sboxCol xb
  let s0 := sboxEntry rom.s0 r0 c0
  let s1 := sboxEntry rom.s1 r1 c1
  let c := s0 ++ s1
  { e, x, xa, xb, r0, c0, r1, c1, s0, s1, c, fo := applyTable rom.p4 c }

/-- The round function F (R142). -/
def roundF (rom : Rom) (h : Nibble) (sk : Byte) : Nibble := (fPath rom h sk).fo

/-- One Feistel round (R144), on the halves (upper, lower). -/
def feistelRound (rom : Rom) (sk : Byte) (ul : Nibble × Nibble) : Nibble × Nibble :=
  (ul.1 ^^^ roundF rom ul.2 sk, ul.2)

/-- SW (R145). -/
def halfSwap (ul : Nibble × Nibble) : Nibble × Nibble := (ul.2, ul.1)

end Sys2Proof.Machine
end

