-- ==== Sys2Proof/Machine/Transform.lean ====
section
/-! DEFINITION. The transform and the meaning of XF (42_transform.md). -/

namespace Sys2Proof.Machine

/-- The datapath values of one XF request, under the names of R27. -/
structure XfPath where
  q : Byte
  u1 : Nibble
  l1 : Nibble
  u2 : Nibble
  l2 : Nibble
  y : Byte
  out : Byte
  deriving DecidableEq, Repr

/-- The pseudocode of R170 with every intermediate value. The halves change places once, after round 1, and not after round
2, whose result stays in the upper half (R145, 90_conflicts.md C1). -/
def xfPath (rom : Rom) (blk ska skb : Byte) : XfPath :=
  let q := applyTable rom.ip blk
  let u1 := upperHalf q
  let l1 := lowerHalf q
  let r1 := halfSwap (feistelRound rom ska (u1, l1))
  let r2 := feistelRound rom skb r1
  let y := r2.1 ++ r2.2
  { q, u1, l1, u2 := r1.1, l2 := r1.2, y, out := applyTable rom.ipInv y }

/-- `transform` (R3, R170). -/
def transform (rom : Rom) (blk ska skb : Byte) : Byte := (xfPath rom blk ska skb).out

/-- The response to an XF request (R83, R170). -/
def xfAnswer (rom : Rom) (blk ska skb : Byte) : Word := xfResponse (transform rom blk ska skb)

/-- XF (R170): the transformed block goes into the response and nothing in the core is written. -/
def execXf (blk ska skb : Byte) (s : State) : Host.Outcome State Fault Refusal :=
  .next (s.respond (xfAnswer s.rom blk ska skb))

end Sys2Proof.Machine
end

