-- ==== Sys2Proof/Machine/Dispatch.lean ====
section
/-! DEFINITION. One arm per instruction of the opcode table. -/

namespace Sys2Proof.Machine

def exec (i : Instr) (s : State) : Host.Outcome State Fault Refusal :=
  match i with
  | .ks key => Sys2Proof.Machine.execKs key s
  | .xf blk ska skb => Sys2Proof.Machine.execXf blk ska skb s

end Sys2Proof.Machine
end

