-- ==== Sys2Proof/Machine/Operands.lean ====
section
/-! DEFINITION. The operand forms. The core's own operands are fields of the request word, taken as they stand (R74), and the decoder
reads them. What is left is the host's side: the request words it assembles, with the session cells it reads for
`enc` and `dec` (R86, R171, R172). -/

namespace Sys2Proof.Machine

/-- The two directions (R18). -/
inductive Direction where
  | encrypt
  | decrypt
  deriving DecidableEq, Repr

/-- The subkey pair (first, second) of a direction: (k1, k2) to encrypt, (k2, k1) to decrypt (R18, R171, R172). -/
def Direction.order (d : Direction) (k1 k2 : Byte) : Byte × Byte :=
  match d with
  | .encrypt => (k1, k2)
  | .decrypt => (k2, k1)

/-- The XF request of one block in one direction (R171, R172). -/
def blockInstr (d : Direction) (k1 k2 blk : Byte) : Instr :=
  .xf blk (d.order k1 k2).1 (d.order k1 k2).2

/-- Reads both session cells; `none` if either is unwritten (R86, R205). -/
def HostAgent.subkeys (host : HostAgent) : Option (Byte × Byte) :=
  match host.sk1, host.sk2 with
  | some k1, some k2 => some (k1, k2)
  | _, _ => none

/-- The line of one block in one direction. -/
def Direction.line (d : Direction) (blk : Byte) : Line :=
  match d with
  | .encrypt => .enc blk
  | .decrypt => .dec blk

end Sys2Proof.Machine
end

