-- ==== Sys2Proof/Machine/HostSide.lean ====
section
/-! DEFINITION. What a host does: issuing its next line, taking its oldest response, joining, and what reset does to it (R86,
R176, R177, R205 to R208, R230). -/

namespace Sys2Proof.Machine

/-- `session KEY` (R86, R176, R177). A key outside 0 to 1023 is rejected: no request, no session, only the record (R207;
that the counter and the cells stay as they are is log entry 10, DEDUCED, safe).
Otherwise the former session ends, both subkey cells become unwritten (R25; DEDUCED, safe: log entry 13), `host.K` takes the
key, and one KS request is issued. -/
def HostAgent.issueSession (host : HostAgent) (key : Int) : HostAgent :=
  if 0 ≤ key ∧ key < 1024 then
    let k := BitVec.ofInt 10 key
    { host with key := some k, sk1 := none, sk2 := none }.send (.session k) (encode (.ks k))
  else host.record .keyOutOfRange

/-- `enc BLK` and `dec BLK` (R86, R171, R172): an unwritten cell is the host fault of R205 and no request is issued. -/
def HostAgent.issueBlock (host : HostAgent) (d : Direction) (blk : Byte) : HostAgent :=
  match host.subkeys with
  | some (k1, k2) => host.send .block (encode (blockInstr d k1 k2 blk))
  | none => host.record .subkeyUnwritten

/-- The effect of issuing one line (R85, R86). -/
def HostAgent.issueLine (host : HostAgent) : Line → HostAgent
  | .ks key => host.send .raw (encode (.ks key))
  | .xf blk ska skb => host.send .raw (encode (.xf blk ska skb))
  | .word w => host.send .raw w
  | .session key => host.issueSession key
  | .enc blk => host.issueBlock .encrypt blk
  | .dec blk => host.issueBlock .decrypt blk

/-- The host issues its next line. A host with a fault or reject recorded takes no further step (R205, R206; for R207
DESIGN CHOICE, safe: log entry 10); a host at
the end of its list has nothing to issue. -/
def HostAgent.issue (host : HostAgent) : HostAgent :=
  match host.fault, host.prog[host.pc]? with
  | none, some line => host.issueLine line
  | _, _ => host

/-- The effect of a taken response. A raw line takes whatever comes (R206). A session line or a block line
takes a STATUS other than OK as the host fault `CoreError` and writes nothing (R206). On OK the KS response of the session writes both cells
(R176), unless the host has begun another session since (DESIGN CHOICE, unsafe: log entry 6), and a block's result byte is appended (R175). -/
def HostAgent.absorb (host : HostAgent) (r : Response) : HostAgent :=
  match r.purpose with
  | .raw => { host with out := host.out ++ [.response r.word] }
  | .session k =>
    if rspStatus r.word = statusOk then
      if host.key = some k then
        { host with sk1 := some (rspDataHigh r.word), sk2 := some (rspDataLow r.word) }
      else host
    else host.record .coreError
  | .block =>
    if rspStatus r.word = statusOk then { host with out := host.out ++ [.byte (rspDataLow r.word)] }
    else host.record .coreError

/-- The host takes its oldest response. A host with a fault recorded takes no further step, and one with no response
ready goes on waiting. A response with STATUS = 11 has no rule (93_implementation_defined.md I6): `none` (DESIGN CHOICE,
safe: log entry 11). -/
def HostAgent.take (host : HostAgent) : Option HostAgent :=
  match host.fault, host.responses with
  | none, r :: rest =>
    if rspStatus r.word = statusUnused then none
    else some ({ host with responses := rest }.absorb r)
  | _, _ => some host

/-- What reset leaves of a host (R230, R231): its session ends, its requests in flight are abandoned and get no
response, and it stands at the start of its list again (DESIGN CHOICE, unsafe for its results: log entry 9). -/
def HostAgent.restart (host : HostAgent) : HostAgent := HostAgent.start host.prog

/-- The input `issue h`. -/
def State.issueInput (s : State) (h : Nat) : Host.Outcome State Fault Refusal :=
  if h < s.hosts.length then .next (s.modifyHost h HostAgent.issue).consume else .fault .noSuchHost

/-- The input `take h`. -/
def State.takeInput (s : State) (h : Nat) : Host.Outcome State Fault Refusal :=
  match s.hosts[h]? with
  | some host =>
    match host.take with
    | some host' => .next (s.modifyHost h fun _ => host').consume
    | none => .refused .statusNeverProduced
  | none => .fault .noSuchHost

/-- The input `serve h` where host `h` has no unanswered request: the core has nothing to do. -/
def State.idleServe (s : State) (h : Nat) : Host.Outcome State Fault Refusal :=
  if h < s.hosts.length then .next s.consume else .fault .noSuchHost

/-- The input `reset` (R230). The tables keep their constant contents (R26); the hosts stay connected. -/
def State.resetInput (s : State) : State := { s with hosts := s.hosts.map HostAgent.restart }.consume

/-- The input `connect`: a host joins behind the others (R215). -/
def State.connectInput (s : State) (prog : List Line) : State :=
  { s with hosts := s.hosts ++ [HostAgent.start prog] }.consume

end Sys2Proof.Machine
end

