-- ==== Sys2Proof/Machine/Fetch.lean ====
section
/-! DEFINITION. Placing a request where the core takes its next one. The core fetches nothing (R22, R54): a request is presented to it. -/

namespace Sys2Proof.Machine

/-- Host `host` with this raw request as its oldest unanswered one. -/
def HostAgent.withRequest (host : HostAgent) (w : Word) : HostAgent :=
  { host with requests := { purpose := .raw, word := w } :: host.requests }

/-- `s` with `w` presented to the core as the request of the very next step, on behalf of the first host. A machine that
no host uses gets one. DESIGN CHOICE, safe: log entry 4. -/
def State.presentRequest (s : State) (w : Word) : State :=
  { s with
    inputs := .serve 0 :: s.inputs
    hosts :=
      match s.hosts with
      | host :: rest => host.withRequest w :: rest
      | [] => [(HostAgent.start []).withRequest w] }

end Sys2Proof.Machine
end

