-- ==== Sys2Proof/Machine/Step.lean ====
section
/-! DEFINITION. One step of the machine: the next input has its effect. -/

namespace Sys2Proof.Machine

/-- One step. With no input left the machine rests: the core waits for a request and nothing changes. Servicing a request is one atomic step
(R20, R45): the word is decoded (R77) and either executed or answered with its error. -/
def step (s : State) : Host.Outcome State Fault Refusal :=
  match s.inputs with
  | [] => .next s
  | .issue h :: _ => s.issueInput h
  | .serve h :: _ =>
    match s.current with
    | some (_, r) =>
      match decode r.word with
      | .ok i => exec i s
      | .error e => .next (s.respondError e)
    | none => s.idleServe h
  | .take h :: _ => s.takeInput h
  | .reset :: _ => .next s.resetInput
  | .connect prog :: _ => .next (s.connectInput prog)

/-- `s` with the opcode-table row's word presented as the very next request. -/
def State.withFetchWord (s : State) (nbits w : Nat) : State := s.presentRequest (requestWord nbits w)

end Sys2Proof.Machine
end

