-- ==== Sys2Proof/Machine/Answer.lean ====
section
/-! DEFINITION. The response as a function of the request (R28): the core seen from outside. `step` does not call it; that every
serviced request gets exactly this response is a statement of its own. -/

namespace Sys2Proof.Machine

/-- The response to a decoded request (R82, R83). -/
def instrAnswer (rom : Rom) : Instr → Word
  | .ks key => ksAnswer rom key
  | .xf blk ska skb => xfAnswer rom blk ska skb

/-- The response to a request word (R28, R77): that of its instruction, or its error (R84). -/
def answerWord (rom : Rom) (w : Word) : Word :=
  match decode w with
  | .ok i => instrAnswer rom i
  | .error e => errorResponse e

/-- A request answered by the core: the response for the same host, with the same purpose. -/
def Request.answered (rom : Rom) (r : Request) : Response :=
  { purpose := r.purpose, word := answerWord rom r.word }

end Sys2Proof.Machine
end

