-- ==== Sys2Proof/Machine/Assembler.lean ====
section
/-! DEFINITION. The assembler of host lines (R85, R86): one request per line, `;` starts a comment, literals in decimal, hex,
binary and as a character. It reads characters and answers the assembled lines or refuses by name. It has no effect on the core
(92_eei_decisions.md D20). DESIGN CHOICE where R85 is silent, safe for the machine, unsafe for a claim
about which texts assemble: log entry 7. -/

namespace Sys2Proof.Machine

/-- Why the assembler refuses a line. -/
inductive AsmError where
  /-- Not of any form of R85 or R86, or a literal of no form of R85. -/
  | malformed
  /-- An operand outside the range its line allows. -/
  | operandRange
  deriving DecidableEq, Repr

/-- The pieces of one line. -/
inductive Token where
  /-- A mnemonic or a number, not yet read. -/
  | word (cs : List Char)
  /-- A character literal: its code. -/
  | code (n : Nat)
  | comma
  deriving DecidableEq, Repr

/-- Ends the word being read; its characters stand reversed in `acc`. -/
def flushWord (acc : List Char) (rest : List Token) : List Token :=
  if acc.isEmpty then rest else .word acc.reverse :: rest

/-- Cuts a line into tokens, up to its comment. R85 does not say whether `;` inside a character literal starts a comment;
the literal is read first, so `enc ';'` has the operand 0x3B, and `','` is no separator. Nor does R85 say whether a character
literal needs a separator before it: its quote ends the word being read, so `enc'b'` is `enc 'b'`; likewise text may follow a
literal directly, as a token of its own. A quote that opens no literal is an ordinary character. (DESIGN CHOICE, unsafe for a claim about
which texts assemble: log entry 7.) -/
def tokens (acc : List Char) : List Char → List Token
  | [] => flushWord acc []
  | '\'' :: c :: '\'' :: rest => flushWord acc (.code c.toNat :: tokens [] rest)
  | c :: rest =>
    if c = ';' then flushWord acc []
    else if c = ' ' ∨ c = '\t' ∨ c = '\r' then flushWord acc (tokens [] rest)
    else if c = ',' then flushWord acc (.comma :: tokens [] rest)
    else tokens (c :: acc) rest

/-- The value of a digit in base 16 or below. -/
def digitValue (c : Char) : Option Nat :=
  if '0' ≤ c ∧ c ≤ '9' then some (c.toNat - '0'.toNat)
  else if 'a' ≤ c ∧ c ≤ 'f' then some (c.toNat - 'a'.toNat + 10)
  else if 'A' ≤ c ∧ c ≤ 'F' then some (c.toNat - 'A'.toNat + 10)
  else none

/-- Reads digits of a base, the most significant first. -/
def readDigits (base : Nat) (sofar : Nat) : List Char → Option Nat
  | [] => some sofar
  | c :: rest =>
    match digitValue c with
    | some d => if d < base then readDigits base (base * sofar + d) rest else none
    | none => none

/-- A number literal: `0x` hex, `0b` binary, otherwise decimal; at least one digit. -/
def readNumber : List Char → Option Nat
  | '0' :: 'x' :: c :: rest => readDigits 16 0 (c :: rest)
  | '0' :: 'b' :: c :: rest => readDigits 2 0 (c :: rest)
  | c :: rest => readDigits 10 0 (c :: rest)
  | [] => none

/-- The value of an operand; a character stands for its ASCII code, so one above 127 has none. -/
def Token.value : Token → Option Nat
  | .word cs => readNumber cs
  | .code n => if n < 128 then some n else none
  | .comma => none

/-- An operand that must fit in `w` bits; refused otherwise, never truncated (R85). -/
def fieldValue (w : Nat) (t : Token) : Except AsmError (BitVec w) :=
  match t.value with
  | some n => if n < 2 ^ w then .ok (BitVec.ofNat w n) else .error .operandRange
  | none => .error .malformed

/-- The key of `session` is the integer the caller supplies; its range is checked when the line runs (R177). The literals of R85
have no sign, so a negative key comes from a caller that gives the line itself, never from a text. -/
def sessionKey (t : Token) : Except AsmError Int :=
  match t.value with
  | some n => .ok (n : Int)
  | none => .error .malformed

/-- Assembles the tokens of a line: a line of R85 or R86, or nothing on an empty line. -/
def assembleTokens : List Token → Except AsmError (Option Line)
  | [] => .ok none
  | [.word ['k', 's'], k] => return some (.ks (← fieldValue 10 k))
  | [.word ['x', 'f'], b, .comma, ka, .comma, kb] =>
    return some (.xf (← fieldValue 8 b) (← fieldValue 8 ka) (← fieldValue 8 kb))
  | [.word ['.', 'w', 'o', 'r', 'd'], w] => return some (.word (← fieldValue 32 w))
  | [.word ['s', 'e', 's', 's', 'i', 'o', 'n'], k] => return some (.session (← sessionKey k))
  | [.word ['e', 'n', 'c'], b] => return some (.enc (← fieldValue 8 b))
  | [.word ['d', 'e', 'c'], b] => return some (.dec (← fieldValue 8 b))
  | _ => .error .malformed

/-- Assembles one line of text. -/
def assembleLine (cs : List Char) : Except AsmError (Option Line) := assembleTokens (tokens [] cs)

/-- Cuts a text at its line ends; `acc` is the line being read, reversed. -/
def textLines (acc : List Char) : List Char → List (List Char)
  | [] => [acc.reverse]
  | c :: rest => if c = '\n' then acc.reverse :: textLines [] rest else textLines (c :: acc) rest

/-- Assembles the lines of a text in order; the first refused line refuses the text (DESIGN CHOICE, safe: log entry 7). -/
def assembleLines : List (List Char) → Except AsmError (List Line)
  | [] => .ok []
  | l :: rest =>
    match assembleLine l, assembleLines rest with
    | .ok (some line), .ok lines => .ok (line :: lines)
    | .ok none, .ok lines => .ok lines
    | .error e, _ => .error e
    | .ok _, .error e => .error e

/-- Assembles a text (R85). -/
def assemble (text : List Char) : Except AsmError (List Line) := assembleLines (textLines [] text)

end Sys2Proof.Machine
end

