-- ==== Sys2Proof/Machine/Driver.lean ====
section
/-! DEFINITION. The byte-stream driver (R175): one XF per byte, no chaining, no padding. -/

namespace Sys2Proof.Machine

/-- One byte in one direction under a pair of subkeys (R171, R172). -/
def cryptByte (rom : Rom) (d : Direction) (k1 k2 blk : Byte) : Byte :=
  transform rom blk (d.order k1 k2).1 (d.order k1 k2).2

/-- A byte sequence in one direction under a pair of subkeys (R175). -/
def cryptStream (rom : Rom) (d : Direction) (k1 k2 : Byte) (input : List Byte) : List Byte :=
  input.map (cryptByte rom d k1 k2)

/-- The driver's list of lines for one key and one byte sequence (R176): one session, then one line per byte. -/
def driverLines (key : Int) (d : Direction) (input : List Byte) : List Line :=
  .session key :: input.map d.line

/-- Issue a line, have it serviced, take its response: host `h` working one line at a time. -/
def lineInputs (h : Nat) : List Input := [.issue h, .serve h, .take h]

end Sys2Proof.Machine
end

