-- ==== Sys2Proof/WellFormed.lean ====
section
/-! DEFINITION. Which instructions and which request words are well formed.

An `Instr` carries its operands at their exact widths, and R111 and R170 say that every such operand is legal, so every
`Instr` is well formed. What can be ill formed is a request WORD, and this file says which, from the mask and
match columns of spec/opcode_table.json. Decode.lean follows the procedure of R77 instead; that the two agree is a
statement of its own. -/

namespace Sys2Proof

/-- R60, R111 and R170: no operand value is illegal. -/
def Instr.wellFormed : Instr → Bool
  | .ks _ => true
  | .xf _ _ _ => true

/-- The row KS of spec/opcode_table.json: mask 0xFFFFFC00, match 0x00000000. -/
def Word.isKs (w : Word) : Bool := w &&& 0xFFFFFC00#32 == 0x00000000#32

/-- The row XF of spec/opcode_table.json: mask 0xFF000000, match 0x10000000. -/
def Word.isXf (w : Word) : Bool := w &&& 0xFF000000#32 == 0x10000000#32

/-- A word that some row of the opcode table matches. -/
def Word.isRequest (w : Word) : Bool := Word.isKs w || Word.isXf w

end Sys2Proof
end

