-- ==== Sys2Proof/Safety.lean ====
section
/-! DEFINITION. What a safe run is: no host fault recorded (R208), and the invariant every step keeps. -/

namespace Sys2Proof.Machine

/-- The premise R208 gives to claims about host programs. -/
def State.noHostFault (s : State) : Bool := s.hosts.all fun host => host.fault.isNone

/-- The session cells are both unwritten, or both written with the key schedule of `host.K` (R25, R176). -/
def HostAgent.cellsMatchKey (rom : Rom) (host : HostAgent) : Bool :=
  match host.key, host.sk1, host.sk2 with
  | _, none, none => true
  | some k, some a, some b => deriveSubkeys rom k == (a, b)
  | _, _, _ => false

/-- A request of a session line is the KS request of its key, and one of a block line is an XF request (R86). -/
def Request.consistent (r : Request) : Bool :=
  match r.purpose with
  | .raw => true
  | .session k => r.word == encode (.ks k)
  | .block => Word.isXf r.word

/-- Every response has the layout of R81 and R84; that of a session line is the key schedule of its key (R82), and that
of a block line is an XF response (R83). -/
def Response.consistent (rom : Rom) (r : Response) : Bool :=
  isResponse r.word &&
  match r.purpose with
  | .raw => true
  | .session k => r.word == ksAnswer rom k
  | .block => r.word == xfResponse (rspDataLow r.word)

/-- The invariant of one host. Its counter stays within its list (R22). -/
def HostAgent.consistent (rom : Rom) (host : HostAgent) : Bool :=
  decide (host.pc ≤ host.prog.length) && host.cellsMatchKey rom && host.requests.all Request.consistent &&
    host.responses.all (Response.consistent rom)

/-- The invariant of the machine: the tables hold their constant contents (R26) and every host is consistent. -/
def State.consistent (s : State) : Bool :=
  decide (s.rom = Rom.published) && s.hosts.all (HostAgent.consistent s.rom)

end Sys2Proof.Machine
end

