-- ==== Sys2Proof/Certificates/Slice0/Obligations.lean ====
section
/-! DEFINITION. The statements for the provers. A statement about a value says it in the spec's own arithmetic (bit lists, slices,
numbers), not through the model's helper for it; a statement about a step says which state the step answers. -/

section
open Sys2Proof
open Sys2Proof.Machine

/-! ## Encodings -/

/-- Every instruction, with every operand at every value its field admits, is read back from its own word (R71, R72, R77). -/
def Obligations.DecodeOfEncodeIsTheInstruction : Prop :=
  ∀ i : Instr, decode (encode i) = .ok i

/-- Every word the decoder accepts is the word the encoder writes: no bit of an accepted word is ignored (R71, R72, R76). -/
def Obligations.AcceptedWordIsTheEncodedWord : Prop :=
  ∀ (w : Word) (i : Instr), decode w = .ok i → encode i = w

/-- R77 on numbers: the five ranges of a 32-bit word and what each decodes to. -/
def Obligations.DecoderFollowsRangesOfTheWord : Prop :=
  ∀ w : Word,
    (w.toNat < 2 ^ 10 → decode w = .ok (.ks (BitVec.ofNat 10 w.toNat))) ∧
    (2 ^ 10 ≤ w.toNat → w.toNat < 2 ^ 28 → decode w = .error .reserved) ∧
    (2 ^ 28 ≤ w.toNat → w.toNat < 2 ^ 28 + 2 ^ 24 →
      decode w = .ok (.xf (BitVec.ofNat 8 w.toNat) (BitVec.ofNat 8 (w.toNat / 2 ^ 8))
        (BitVec.ofNat 8 (w.toNat / 2 ^ 16)))) ∧
    (2 ^ 28 + 2 ^ 24 ≤ w.toNat → w.toNat < 2 ^ 29 → decode w = .error .reserved) ∧
    (2 ^ 29 ≤ w.toNat → decode w = .error .opcode)

/-- The decoder of R77 accepts exactly the words that match a row of spec/opcode_table.json, and the row names the
operation. -/
def Obligations.DecoderAgreesWithTheOpcodeTable : Prop :=
  ∀ w : Word,
    (Word.isKs w = true ↔ ∃ key, decode w = .ok (.ks key)) ∧
    (Word.isXf w = true ↔ ∃ blk ska skb, decode w = .ok (.xf blk ska skb)) ∧
    (Word.isRequest w = false ↔ ∃ e, decode w = .error e)

/-- Words written out from R71 and R72 bit by bit, and malformed ones. -/
def Obligations.WrittenOutWordsDecode : Prop :=
  decode 0b0000_000000000000000000_1010000010#32 = .ok (.ks 642#10) ∧
  decode 0b0001_0000_01000011_10100100_01100010#32 = .ok (.xf 0x62#8 0xA4#8 0x43#8) ∧
  decode 0b0000_000000000000000001_0000000000#32 = .error .reserved ∧
  decode 0b0001_0001_00000000_00000000_00000000#32 = .error .reserved ∧
  decode 0b0010_1111_11111111_11111111_11111111#32 = .error .opcode

/-! ## Datapath primitives and tables -/

/-- R12. -/
def Obligations.PermutationTakesListedSourceBits : Prop :=
  ∀ (n m : Nat) (t : PermTable n m) (v : BitVec n) (j : Fin m),
    (applyTable t v).getLsbD (m - 1 - j) = v.getLsbD (t.get j)

/-- R14, both forms. -/
def Obligations.RotationWrapsInsideTheHalf : Prop :=
  ∀ (x : KeyHalf) (s : Nat), s = 1 ∨ s = 2 →
    (rol5 x s).toNat = (x.toNat <<< s ||| x.toNat >>> (5 - s)) % 32 ∧
    ∀ i < 5, (rol5 x s).getLsbD i = x.getLsbD ((i + 5 - s) % 5)

/-- R100: every index 0 to 9 occurs exactly once in P10. -/
def Obligations.KeyPermutationIsABijection : Prop :=
  ∀ i : Fin 10, Rom.published.p10.toList.count i = 1

/-- R132: IP^-1 written out, and the two tables undo each other. -/
def Obligations.InversePermutationUndoesInitial : Prop :=
  ∀ v : Byte,
    applyTable Rom.published.ipInv v =
      (BitVec.ofBool (v.getLsbD 4) ++ BitVec.ofBool (v.getLsbD 7) ++ BitVec.ofBool (v.getLsbD 5) ++
        BitVec.ofBool (v.getLsbD 3) ++ BitVec.ofBool (v.getLsbD 1) ++ BitVec.ofBool (v.getLsbD 6) ++
        BitVec.ofBool (v.getLsbD 0) ++ BitVec.ofBool (v.getLsbD 2) : Byte) ∧
    applyTable Rom.published.ipInv (applyTable Rom.published.ip v) = v ∧
    applyTable Rom.published.ip (applyTable Rom.published.ipInv v) = v

/-- R134: EP written out, and as two rotations. -/
def Obligations.ExpansionIsTwoRotations : Prop :=
  ∀ h : Nibble,
    applyTable Rom.published.ep h =
      (BitVec.ofBool (h.getLsbD 0) ++ BitVec.ofBool (h.getLsbD 3) ++ BitVec.ofBool (h.getLsbD 2) ++
        BitVec.ofBool (h.getLsbD 1) ++ BitVec.ofBool (h.getLsbD 2) ++ BitVec.ofBool (h.getLsbD 1) ++
        BitVec.ofBool (h.getLsbD 0) ++ BitVec.ofBool (h.getLsbD 3) : Byte) ∧
    applyTable Rom.published.ep h = (h.rotateRight 1 ++ h.rotateLeft 1 : Byte)

/-- R143: the S-boxes by input value. -/
def Obligations.SboxesByInputValue : Prop :=
  ∀ x : Nibble,
    some (sboxEntry Rom.published.s0 (sboxRow x) (sboxCol x)).toNat =
      [1, 3, 0, 2, 3, 1, 2, 0, 0, 3, 2, 1, 1, 3, 3, 2][x.toNat]? ∧
    some (sboxEntry Rom.published.s1 (sboxRow x) (sboxCol x)).toNat =
      [0, 2, 1, 0, 2, 1, 3, 3, 3, 2, 0, 1, 1, 0, 0, 3][x.toNat]?

/-! ## The operations -/

/-- KS (R110, R82) completes from every state that holds the tables' constant contents, with the response its pseudocode gives.
The pseudocode is written out on numbers: `ap` is the application of an index list (R12), `rol` is R14, the two index
lists are R100 and R105. -/
def Obligations.KsAnswersTheDerivedSubkeys : Prop :=
  ∀ (key : Key) (s : State), s.rom = Rom.published →
    let ap := fun (t : List Nat) (v : Nat) => t.foldl (fun n i => 2 * n + v / 2 ^ i % 2) 0
    let rol := fun x s : Nat => (x * 2 ^ s ||| x / 2 ^ (5 - s)) % 32
    let p := ap [7, 5, 8, 3, 6, 0, 9, 1, 2, 4] key.toNat
    let kl1 := rol (p / 32) 1
    let kr1 := rol (p % 32) 1
    let k1 := ap [4, 7, 3, 6, 2, 5, 0, 1] (32 * kl1 + kr1)
    let k2 := ap [4, 7, 3, 6, 2, 5, 0, 1] (32 * rol kl1 2 + rol kr1 2)
    exec (.ks key) s = .next (s.respond (BitVec.ofNat 32 (256 * k1 + k2)))

/-- R109, which the spec marks as derived: each subkey bit is one key bit. -/
def Obligations.SubkeysHaveTheClosedForm : Prop :=
  ∀ key : Key,
    let b := fun i => BitVec.ofBool (key.getLsbD i)
    deriveSubkeys Rom.published key =
      ((b 9 ++ b 3 ++ b 1 ++ b 6 ++ b 2 ++ b 7 ++ b 0 ++ b 4 : Byte),
        (b 2 ++ b 7 ++ b 4 ++ b 5 ++ b 0 ++ b 8 ++ b 1 ++ b 9 : Byte))

/-- R103, R104, R106 for K1, R107, R108 for K2: the second rotation starts from the halves already rotated once, so each half of J2 is the P10 half
rotated left by 3 in total, and each half of J1 by 1; no bit crosses from one half to the other. -/
def Obligations.SubkeyHalvesRotateByOneAndThree : Prop :=
  ∀ (rom : Rom) (key : Key),
    let p := applyTable rom.p10 key
    deriveSubkeys rom key =
      (applyTable rom.p8 ((p.extractLsb' 5 5).rotateLeft 1 ++ (p.extractLsb' 0 5).rotateLeft 1),
        applyTable rom.p8 ((p.extractLsb' 5 5).rotateLeft 3 ++ (p.extractLsb' 0 5).rotateLeft 3))

/-- R109: the keys with K1 = K2 are these eight. -/
def Obligations.EqualSubkeysForEightKeys : Prop :=
  ∀ key : Key, (deriveSubkeys Rom.published key).1 = (deriveSubkeys Rom.published key).2 ↔
    key.toNat ∈ [0, 96, 392, 488, 535, 631, 927, 1023]

/-- The round function (R142) on numbers: EP (R133) by its index list, the subkey, the S-boxes by row and column (R137 to R139), P4
(R141) by its index list. -/
def Obligations.RoundFunctionFollowsItsSteps : Prop :=
  ∀ (h : Nibble) (sk : Byte),
    let ap := fun (t : List Nat) (v : Nat) => t.foldl (fun n i => 2 * n + v / 2 ^ i % 2) 0
    let look := fun (m : List (List Nat)) (x : Nat) => (m.getD (2 * (x / 8) + x % 2) []).getD (x / 2 % 4) 0
    let x := ap [0, 3, 2, 1, 2, 1, 0, 3] h.toNat ^^^ sk.toNat
    let s0 := look [[1, 0, 3, 2], [3, 2, 1, 0], [0, 2, 1, 3], [3, 1, 3, 2]] (x / 16)
    let s1 := look [[0, 1, 2, 3], [2, 0, 1, 3], [3, 0, 1, 0], [2, 1, 0, 3]] (x % 16)
    (roundF Rom.published h sk).toNat = ap [2, 0, 1, 3] (4 * s0 + s1)

/-- XF (R170, R83) completes from every state that holds the tables' constant contents, with the response its pseudocode gives.
The pseudocode is written out on numbers, the tables as in the rules that give them (R130, R132, R133, R137 to R139, R141). -/
def Obligations.XfAnswersTheTransformedBlock : Prop :=
  ∀ (blk ska skb : Byte) (s : State), s.rom = Rom.published →
    let ap := fun (t : List Nat) (v : Nat) => t.foldl (fun n i => 2 * n + v / 2 ^ i % 2) 0
    let look := fun (m : List (List Nat)) (x : Nat) => (m.getD (2 * (x / 8) + x % 2) []).getD (x / 2 % 4) 0
    let f := fun h sk : Nat =>
      let x := ap [0, 3, 2, 1, 2, 1, 0, 3] h ^^^ sk
      ap [2, 0, 1, 3]
        (4 * look [[1, 0, 3, 2], [3, 2, 1, 0], [0, 2, 1, 3], [3, 1, 3, 2]] (x / 16) +
          look [[0, 1, 2, 3], [2, 0, 1, 3], [3, 0, 1, 0], [2, 1, 0, 3]] (x % 16))
    let q := ap [6, 2, 5, 7, 4, 0, 3, 1] blk.toNat
    let u1 := q / 16
    let l1 := q % 16
    let u2 := l1
    let l2 := u1 ^^^ f l1 ska.toNat
    let y := 16 * (u2 ^^^ f l2 skb.toNat) + l2
    let out := ap [4, 7, 5, 3, 1, 6, 0, 2] y
    exec (.xf blk ska skb) s = .next (s.respond (BitVec.ofNat 32 out))

/-- R200, R111: neither operation stops, whatever its operands and whatever the state. -/
def Obligations.NoOperationRaisesAnException : Prop :=
  ∀ (i : Instr) (s : State), ∃ t, exec i s = .next t

/-- R173: the round trip, for every pair of subkeys, whatever the tables hold, as long as IP^-1 and IP undo each other; and for
every key under the published tables. -/
def Obligations.ReversedSubkeysUndoTheTransform : Prop :=
  (∀ rom : Rom,
    (∀ v : Byte, applyTable rom.ipInv (applyTable rom.ip v) = v) →
    (∀ v : Byte, applyTable rom.ip (applyTable rom.ipInv v) = v) →
    ∀ blk a b : Byte, transform rom (transform rom blk a b) b a = blk) ∧
  ∀ (key : Key) (blk : Byte),
    transform Rom.published
      (transform Rom.published blk (deriveSubkeys Rom.published key).1 (deriveSubkeys Rom.published key).2)
      (deriveSubkeys Rom.published key).2 (deriveSubkeys Rom.published key).1 = blk

/-- R174. -/
def Obligations.TransformIsABijectionOfBlocks : Prop :=
  ∀ ska skb : Byte,
    Function.Bijective (fun blk => transform Rom.published blk ska skb) ∧
    ∀ b c : Byte, transform Rom.published b ska skb = c ↔ transform Rom.published c skb ska = b

/-- The frame of KS and XF (R46, R110, R170): the tables, the other hosts, and of the host answered everything but its two queues
are unchanged. Its oldest request leaves and one response joins behind the others (R51). -/
def Obligations.OperationsChangeOnlyTheAnsweredQueues : Prop :=
  ∀ (i : Instr) (s t : State) (h : Nat) (r : Request), s.current = some (h, r) → exec i s = .next t →
    t.rom = s.rom ∧ t.inputs = s.inputs.tail ∧ t.hosts.length = s.hosts.length ∧
    (∀ k, k ≠ h → t.hosts[k]? = s.hosts[k]?) ∧
    ∃ a b, s.hosts[h]? = some a ∧ t.hosts[h]? = some b ∧
      b.prog = a.prog ∧ b.pc = a.pc ∧ b.key = a.key ∧ b.sk1 = a.sk1 ∧ b.sk2 = a.sk2 ∧
      b.fault = a.fault ∧ b.out = a.out ∧ a.requests = r :: b.requests ∧
      ∃ w, b.responses = a.responses ++ [{ purpose := r.purpose, word := w }]

/-! ## The step -/

/-- When the request at hand decodes to an instruction, the step is that instruction's meaning (R77). The step adds nothing around it. -/
def Obligations.StepRunsTheDecodedRequest : Prop :=
  ∀ (s : State) (h : Nat) (r : Request) (i : Instr),
    s.current = some (h, r) → decode r.word = .ok i → step s = exec i s

/-- A row's word placed for the next step is run by the next step (log entry 4 says where it is placed). -/
def Obligations.PlacedWordIsTheNextToRun : Prop :=
  ∀ (s : State) (nbits w : Nat) (i : Instr),
    decodeTableWord nbits w = some i → step (s.withFetchWord nbits w) = exec i (s.withFetchWord nbits w)

/-- R75, R201: a reserved opcode is answered 0x40000000 whatever the other bits hold (R203). -/
def Obligations.ReservedOpcodeIsAnsweredErrOpcode : Prop :=
  ∀ (s : State) (h : Nat) (r : Request),
    s.current = some (h, r) → 2 ≤ (r.word.extractLsb' 28 4).toNat → step s = .next (s.respond 0x40000000#32)

/-- R76, R202: a non-zero reserved bit of KS or of XF is answered 0x80000000. -/
def Obligations.ReservedBitsAreAnsweredErrReserved : Prop :=
  ∀ (s : State) (h : Nat) (r : Request), s.current = some (h, r) →
    (r.word.extractLsb' 28 4 = 0#4 ∧ r.word.extractLsb' 10 18 ≠ 0#18 ∨
      r.word.extractLsb' 28 4 = 1#4 ∧ r.word.extractLsb' 24 4 ≠ 0#4) →
    step s = .next (s.respond 0x80000000#32)

/-- R204: a malformed request has no effect except its response. -/
def Obligations.MalformedRequestChangesOnlyTheAnsweredQueues : Prop :=
  ∀ (s : State) (h : Nat) (r : Request) (e : RequestError),
    s.current = some (h, r) → decode r.word = .error e →
    ∃ t a b w, step s = .next t ∧ s.hosts[h]? = some a ∧ a.requests = r :: b.requests ∧
      b = { a with requests := b.requests, responses := a.responses ++ [{ purpose := r.purpose, word := w }] } ∧
      t = { s with inputs := s.inputs.tail, hosts := s.hosts.set h b }

/-- R28, R46: two requests with the same word get the same response, whatever else differs: the host, its cells, earlier requests, the other
hosts, the inputs to come. Both states hold the tables at their constant contents. -/
def Obligations.ResponseDependsOnTheWordAlone : Prop :=
  ∀ (s t : State) (h k : Nat) (r q : Request),
    s.rom = Rom.published → t.rom = Rom.published →
    s.current = some (h, r) → t.current = some (k, q) → r.word = q.word →
    ∃ w, step s = .next (s.respond w) ∧ step t = .next (t.respond w)

/-- R81: the layout of the response to every request, whatever its word and whatever the tables hold: STATUS is never 11 and
bits [29:16] are zero. Beside an error there is no data (R84). -/
def Obligations.EveryResponseHasTheLayout : Prop :=
  ∀ (s : State) (h : Nat) (r : Request), s.current = some (h, r) →
    ∃ w, step s = .next (s.respond w) ∧
      w.extractLsb' 30 2 ≠ 0b11#2 ∧ w.extractLsb' 16 14 = 0#14 ∧
      (w.extractLsb' 30 2 ≠ 0b00#2 → w.extractLsb' 0 16 = 0#16)

/-- R50: requests of any number of hosts serviced in any order leave every host with the same responses, and
the machine in the same state. -/
def Obligations.ServiceOrderDoesNotMatter : Prop :=
  ∀ (s : State) (hs ks : List Nat) (rest : List Input), hs.Perm ks →
    core.run hs.length { s with inputs := hs.map Input.serve ++ rest } =
      core.run ks.length { s with inputs := ks.map Input.serve ++ rest }

/-- R51, R250: as many services as a host has unanswered requests answer them all, in the order it issued them, behind
the responses it had. -/
def Obligations.RequestsAreAnsweredInIssueOrder : Prop :=
  ∀ (s : State) (h : Nat) (a : HostAgent) (rest : List Input), s.hosts[h]? = some a →
    core.run a.requests.length { s with inputs := List.replicate a.requests.length (Input.serve h) ++ rest } =
      .next { s with
        inputs := rest
        hosts := s.hosts.set h
          { a with requests := [], responses := a.responses ++ a.requests.map (Request.answered s.rom) } }

/-! ## The host side -/

/-- R176, R86: a session line with a key in range starts a session and issues its KS request, whose word is the key itself (R85).
That `host.K` is written and both subkey cells become unwritten at this point is the model's reading of R25 and R176
(DEDUCED, log entry 13). -/
def Obligations.SessionLineIssuesItsKeyRequest : Prop :=
  ∀ (s : State) (h : Nat) (a : HostAgent) (rest : List Input) (key : Nat),
    s.inputs = .issue h :: rest → s.hosts[h]? = some a → a.fault = none →
    a.prog[a.pc]? = some (.session key) → key < 1024 →
    step s = .next { s with
      inputs := rest
      hosts := s.hosts.set h
        { a with
          pc := a.pc + 1, key := some (BitVec.ofNat 10 key), sk1 := none, sk2 := none
          requests := a.requests ++
            [{ purpose := .session (BitVec.ofNat 10 key), word := BitVec.ofNat 32 key }] } }

/-- R177, R207: a key outside 0 to 1023, on either side, is rejected: no request, no session, only the record. That the counter
and an earlier session's cells stay as they are is the model's reading (DEDUCED, log entry 10). -/
def Obligations.OutOfRangeKeyIsRejected : Prop :=
  ∀ (s : State) (h : Nat) (a : HostAgent) (rest : List Input) (key : Int),
    s.inputs = .issue h :: rest → s.hosts[h]? = some a → a.fault = none →
    a.prog[a.pc]? = some (.session key) → key < 0 ∨ 1024 ≤ key →
    step s = .next { s with
      inputs := rest, hosts := s.hosts.set h { a with fault := some .keyOutOfRange } }

/-- R171, R172: with both cells written, `enc` issues the word 1, 0, K2, K1, B and `dec` the word 1, 0, K1, K2, B,
each of a nibble, a nibble and three bytes. -/
def Obligations.BlockLinesIssueTheirTransformRequest : Prop :=
  ∀ (s : State) (h : Nat) (a : HostAgent) (rest : List Input) (k1 k2 blk : Byte),
    s.inputs = .issue h :: rest → s.hosts[h]? = some a → a.fault = none →
    a.sk1 = some k1 → a.sk2 = some k2 →
    (a.prog[a.pc]? = some (.enc blk) → step s = .next { s with
      inputs := rest
      hosts := s.hosts.set h
        { a with
          pc := a.pc + 1
          requests := a.requests ++ [{ purpose := .block, word := 0x1#4 ++ 0x0#4 ++ k2 ++ k1 ++ blk }] } }) ∧
    (a.prog[a.pc]? = some (.dec blk) → step s = .next { s with
      inputs := rest
      hosts := s.hosts.set h
        { a with
          pc := a.pc + 1
          requests := a.requests ++ [{ purpose := .block, word := 0x1#4 ++ 0x0#4 ++ k1 ++ k2 ++ blk }] } })

/-- R205: `enc` or `dec` with a cell unwritten issues nothing and records `SubkeyUnwritten`. That the counter stays where it is is
the model's reading of program P4 (DEDUCED, log entry 10). -/
def Obligations.UnwrittenSubkeyIsAHostFault : Prop :=
  ∀ (s : State) (h : Nat) (a : HostAgent) (rest : List Input) (blk : Byte),
    s.inputs = .issue h :: rest → s.hosts[h]? = some a → a.fault = none →
    a.prog[a.pc]? = some (.enc blk) ∨ a.prog[a.pc]? = some (.dec blk) → a.sk1 = none ∨ a.sk2 = none →
    step s = .next { s with
      inputs := rest, hosts := s.hosts.set h { a with fault := some .subkeyUnwritten } }

/-- R85: the words of the raw lines, and that a raw line touches no session cell. -/
def Obligations.RawLinesIssueTheirWord : Prop :=
  ∀ (s : State) (h : Nat) (a : HostAgent) (rest : List Input) (w : Word),
    s.inputs = .issue h :: rest → s.hosts[h]? = some a → a.fault = none →
    ((∃ key : Key, a.prog[a.pc]? = some (.ks key) ∧ w = key.setWidth 32) ∨
      (∃ blk ska skb : Byte, a.prog[a.pc]? = some (.xf blk ska skb) ∧
        w = 0b0001#4 ++ 0b0000#4 ++ skb ++ ska ++ blk) ∨
      a.prog[a.pc]? = some (.word w)) →
    step s = .next { s with
      inputs := rest
      hosts := s.hosts.set h
        { a with pc := a.pc + 1, requests := a.requests ++ [{ purpose := .raw, word := w }] } }

/-- R176: on a response with STATUS = OK to the session's KS the host writes both cells, and nothing else but its queue. Whether
the response is that of the session the host is in is the model's own distinction (DESIGN CHOICE, log entry 6): when `host.K` is
another key, or unwritten, the response belongs to an ended session, is taken, and writes no cell. -/
def Obligations.SessionResponseWritesBothCells : Prop :=
  ∀ (s : State) (h : Nat) (a : HostAgent) (rest : List Input) (k : Key) (w : Word) (more : List Response),
    s.inputs = .take h :: rest → s.hosts[h]? = some a → a.fault = none →
    a.responses = { purpose := .session k, word := w } :: more → w.extractLsb' 30 2 = 0b00#2 →
    (a.key = some k → step s = .next { s with
      inputs := rest
      hosts := s.hosts.set h
        { a with responses := more, sk1 := some (w.extractLsb' 8 8), sk2 := some (w.extractLsb' 0 8) } }) ∧
    (a.key ≠ some k → step s = .next { s with
      inputs := rest, hosts := s.hosts.set h { a with responses := more } })

/-- R175, R86: on a response with STATUS = OK to a block line the host appends the result byte, and nothing else. -/
def Obligations.BlockResponseAppendsItsByte : Prop :=
  ∀ (s : State) (h : Nat) (a : HostAgent) (rest : List Input) (w : Word) (more : List Response),
    s.inputs = .take h :: rest → s.hosts[h]? = some a → a.fault = none →
    a.responses = { purpose := .block, word := w } :: more → w.extractLsb' 30 2 = 0b00#2 →
    step s = .next { s with
      inputs := rest
      hosts := s.hosts.set h { a with responses := more, out := a.out ++ [.byte (w.extractLsb' 0 8)] } }

/-- R206: an error response to a session line or a block line is the host fault `CoreError` and writes no cell and
no byte. A raw line takes whatever response comes back, OK or error (every STATUS but 11, which has a statement of its own), raises
no fault and writes no cell; that what it appends to the results is the whole word is the model's reading of program P3
(DEDUCED, log entry 12). -/
def Obligations.ErrorResponseFaultsOnlySessionLines : Prop :=
  ∀ (s : State) (h : Nat) (a : HostAgent) (rest : List Input) (r : Response) (more : List Response),
    s.inputs = .take h :: rest → s.hosts[h]? = some a → a.fault = none → a.responses = r :: more →
    (r.purpose ≠ .raw → r.word.extractLsb' 30 2 = 0b01#2 ∨ r.word.extractLsb' 30 2 = 0b10#2 →
      step s = .next { s with
        inputs := rest, hosts := s.hosts.set h { a with responses := more, fault := some .coreError } }) ∧
    (r.purpose = .raw → r.word.extractLsb' 30 2 ≠ 0b11#2 →
      step s = .next { s with
        inputs := rest, hosts := s.hosts.set h { a with responses := more, out := a.out ++ [.response r.word] } })

/-- R208: until a reset a recorded fault stays. R205, R206: its host takes no further step: on every input but a service of its
requests (the core's step, not the host's) the host is wholly unchanged, its own `issue` and `take` among them, and on
a service everything but its two queues is. The model's own parts: reset clears the record (DESIGN CHOICE, log entry 9), and a host
with the reject KeyOutOfRange takes no further step either (DESIGN CHOICE, log entry 10). -/
def Obligations.FaultedHostTakesNoFurtherStep : Prop :=
  ∀ (s t : State) (h : Nat) (a : HostAgent) (f : HostFault),
    s.inputs.head? ≠ some .reset → step s = .next t → s.hosts[h]? = some a → a.fault = some f →
    (s.inputs.head? ≠ some (.serve h) → t.hosts[h]? = some a) ∧
    ∃ b, t.hosts[h]? = some b ∧ b.fault = some f ∧ b.prog = a.prog ∧ b.pc = a.pc ∧ b.key = a.key ∧
      b.sk1 = a.sk1 ∧ b.sk2 = a.sk2 ∧ b.out = a.out

/-- R50, R215: an input about one host leaves every other host as it was. -/
def Obligations.HostsShareNothingThroughTheCore : Prop :=
  ∀ (s t : State) (h k : Nat), h ≠ k → step s = .next t →
    s.inputs.head? = some (.issue h) ∨ s.inputs.head? = some (.serve h) ∨ s.inputs.head? = some (.take h) →
    t.hosts[k]? = s.hosts[k]?

/-- R230, R231: reset ends every session and abandons every request in flight; nothing of a host is left but its list of lines, which is
given from outside. The tables keep their contents. That the results start empty again is the model's choice (log entry 9). -/
def Obligations.ResetEndsEverySession : Prop :=
  ∀ (s : State) (rest : List Input), s.inputs = .reset :: rest →
    ∃ t, step s = .next t ∧ t.rom = s.rom ∧ t.inputs = rest ∧
      t.hosts = s.hosts.map fun a =>
        { prog := a.prog, pc := 0, key := none, sk1 := none, sk2 := none, fault := none,
          requests := [], responses := [], out := [] }

/-- R231: the values of the state right after reset. -/
def Obligations.ResetValues : Prop :=
  State.reset.rom = Rom.published ∧
  ∀ host ∈ State.reset.hosts, host.pc = 0 ∧ host.key = none ∧ host.sk1 = none ∧ host.sk2 = none ∧
    host.fault = none ∧ host.requests = [] ∧ host.responses = []

/-- R215, R22: a host joins behind the others, at the start of its list; nothing else changes. -/
def Obligations.HostJoinsAtItsStart : Prop :=
  ∀ (s : State) (rest : List Input) (prog : List Line), s.inputs = .connect prog :: rest →
    ∃ t, step s = .next t ∧ t.rom = s.rom ∧ t.inputs = rest ∧
      (∀ k < s.hosts.length, t.hosts[k]? = s.hosts[k]?) ∧ t.hosts.length = s.hosts.length + 1 ∧
      ∃ a, t.hosts[s.hosts.length]? = some a ∧ a.prog = prog ∧ a.pc = 0 ∧ a.key = none ∧ a.sk1 = none ∧
        a.sk2 = none ∧ a.fault = none ∧ a.requests = [] ∧ a.responses = [] ∧ a.out = []

/-- The model's own reading of an input with nothing to act on (log entry 5): a host at the end of its list issues nothing, a
host with no response ready waits, the core with no request of the host rests, and without any input nothing changes. -/
def Obligations.NothingToDoChangesNothing : Prop :=
  ∀ (s : State) (h : Nat) (a : HostAgent) (rest : List Input), s.hosts[h]? = some a →
    (s.inputs = .issue h :: rest → a.prog[a.pc]? = none → step s = .next { s with inputs := rest }) ∧
    (s.inputs = .take h :: rest → a.responses = [] → step s = .next { s with inputs := rest }) ∧
    (s.inputs = .serve h :: rest → a.requests = [] → step s = .next { s with inputs := rest }) ∧
    (s.inputs = [] → step s = .next s)

/-! ## Invariants -/

/-- The invariant holds right after reset. -/
def Obligations.ResetIsConsistent : Prop := State.reset.consistent = true

/-- The invariant is kept by every step: the tables hold their constant contents, every host's counter stays in its list, the session cells
of every host are unwritten or hold the key schedule of its key, and every request and response in flight is what the protocol says.
The clause on the cells rests on the model's own handling of sessions: a response of an ended session writes no cell (DESIGN CHOICE,
log entry 6), and starting a session makes the cells unwritten (DEDUCED, log entry 13). -/
def Obligations.EveryStepKeepsConsistency : Prop :=
  ∀ s t : State, s.consistent = true → step s = .next t → t.consistent = true

/-- R26: the tables have the same contents at every step and after every reset. -/
def Obligations.TablesAreNeverWritten : Prop :=
  ∀ s t : State, step s = .next t → t.rom = s.rom

/-- R81, R200: in a consistent state no step is refused, and no host takes a core error from a session line: the errors of
R201 and R202 come from raw lines only. -/
def Obligations.SessionLinesNeverMeetACoreError : Prop :=
  ∀ s : State, s.consistent = true →
    (∀ r, step s ≠ .refused r) ∧
    ∀ (t : State) (h : Nat) (a b : HostAgent), step s = .next t → s.hosts[h]? = some a → t.hosts[h]? = some b →
      a.fault ≠ some .coreError → b.fault ≠ some .coreError

/-- When the machine stops with a fault: exactly when the next input names a host that does not exist (the model's own, log entry 5). -/
def Obligations.FaultOnlyWithoutTheHost : Prop :=
  ∀ s : State, step s = .fault .noSuchHost ↔
    ∃ h, s.hosts.length ≤ h ∧
      (s.inputs.head? = some (.issue h) ∨ s.inputs.head? = some (.serve h) ∨ s.inputs.head? = some (.take h))

/-- When a step has no meaning: exactly when a host takes a response with STATUS = 11, which no rule gives an effect
(93_implementation_defined.md I6). -/
def Obligations.RefusedOnlyOnTheUnusedStatus : Prop :=
  ∀ s : State, (∃ r, step s = .refused r) ↔
    ∃ h a r more, s.inputs.head? = some (.take h) ∧ s.hosts[h]? = some a ∧ a.fault = none ∧
      a.responses = r :: more ∧ r.word.extractLsb' 30 2 = 0b11#2

/-! ## The driver -/

/-- R175: same length, byte by byte, no dependence on position or neighbours. -/
def Obligations.StreamIsOneTransformPerByte : Prop :=
  ∀ (rom : Rom) (k1 k2 : Byte) (input : List Byte),
    (∀ d, (cryptStream rom d k1 k2 input).length = input.length) ∧
    (∀ i : Nat, (cryptStream rom .encrypt k1 k2 input)[i]? = input[i]?.map fun b => transform rom b k1 k2) ∧
    (∀ i : Nat, (cryptStream rom .decrypt k1 k2 input)[i]? = input[i]?.map fun b => transform rom b k2 k1) ∧
    (∀ (d : Direction) (i : Nat) (b : Byte), cryptStream rom d k1 k2 (input.set i b) =
      (cryptStream rom d k1 k2 input).set i (cryptByte rom d k1 k2 b))

/-- R173 over byte sequences: what one direction does, the other undoes, under every key. -/
def Obligations.StreamRoundTrips : Prop :=
  ∀ (key : Key) (input : List Byte),
    let k1 := (deriveSubkeys Rom.published key).1
    let k2 := (deriveSubkeys Rom.published key).2
    cryptStream Rom.published .decrypt k1 k2 (cryptStream Rom.published .encrypt k1 k2 input) = input ∧
    cryptStream Rom.published .encrypt k1 k2 (cryptStream Rom.published .decrypt k1 k2 input) = input

/-- R176: a host with nothing in flight that runs a session line, one step at a time, ends with the key schedule of its key
in its two cells. -/
def Obligations.SessionRunsToWrittenCells : Prop :=
  ∀ (s : State) (h : Nat) (a : HostAgent) (rest : List Input) (key : Nat),
    s.hosts[h]? = some a → a.fault = none → a.requests = [] → a.responses = [] →
    a.prog[a.pc]? = some (.session key) → key < 1024 →
    core.run 3 { s with inputs := lineInputs h ++ rest } =
      .next { s with
        inputs := rest
        hosts := s.hosts.set h
          { a with
            pc := a.pc + 1, key := some (BitVec.ofNat 10 key)
            sk1 := some (deriveSubkeys s.rom (BitVec.ofNat 10 key)).1
            sk2 := some (deriveSubkeys s.rom (BitVec.ofNat 10 key)).2 } }

/-- R175 carried out by the machine: a host in a session whose remaining lines are one `enc` (or `dec`) line per byte, run
one line at a time, appends exactly the driver's output sequence and changes nothing else but its counter. -/
def Obligations.MachineCarriesOutTheStream : Prop :=
  ∀ (input : List Byte) (d : Direction) (s : State) (h : Nat) (a : HostAgent) (rest : List Input) (k1 k2 : Byte),
    s.hosts[h]? = some a → a.fault = none → a.requests = [] → a.responses = [] →
    a.sk1 = some k1 → a.sk2 = some k2 → a.prog.drop a.pc = input.map d.line →
    core.run (3 * input.length)
        { s with inputs := (List.replicate input.length (lineInputs h)).flatten ++ rest } =
      .next { s with
        inputs := rest
        hosts := s.hosts.set h
          { a with
            pc := a.pc + input.length
            out := a.out ++ (cryptStream s.rom d k1 k2 input).map OutItem.byte } }

/-- R85: an operand is read at its exact width or the line is refused; it is never truncated. -/
def Obligations.AssemblerRefusesWideOperands : Prop :=
  ∀ (k b ka kb : Token) (nk nb na nc : Nat),
    k.value = some nk → b.value = some nb → ka.value = some na → kb.value = some nc →
    (nk < 1024 → assembleTokens [.word ['k', 's'], k] = .ok (some (.ks (BitVec.ofNat 10 nk)))) ∧
    (1024 ≤ nk → assembleTokens [.word ['k', 's'], k] = .error .operandRange) ∧
    (nb < 256 → na < 256 → nc < 256 → assembleTokens [.word ['x', 'f'], b, .comma, ka, .comma, kb] =
      .ok (some (.xf (BitVec.ofNat 8 nb) (BitVec.ofNat 8 na) (BitVec.ofNat 8 nc)))) ∧
    (256 ≤ nb ∨ 256 ≤ na ∨ 256 ≤ nc →
      assembleTokens [.word ['x', 'f'], b, .comma, ka, .comma, kb] = .error .operandRange)

end
end

