-- ==== Sys2Proof/Laws/Bits.lean ====
section
/-! SUPPORT. Slices of joined values, halves, and the bits of a permuted value.

A join `a ++ b` has the width `m + n`; where the model writes the width as a numeral, these lemmas are applied as terms
(the two widths are equal by computation, which a rewrite does not see). -/

namespace Sys2Proof

/-- A slice that lies in the low part of a join. -/
theorem extract_append_low {m n lo len : Nat} (a : BitVec m) (b : BitVec n) (h : lo + len ≤ n) :
    (a ++ b).extractLsb' lo len = b.extractLsb' lo len := by
  apply BitVec.eq_of_getLsbD_eq
  intro i hi
  have : lo + i < n := by omega
  simp [BitVec.getLsbD_append, this]

/-- A slice that lies in the high part of a join. -/
theorem extract_append_high {m n lo len : Nat} (a : BitVec m) (b : BitVec n) (h : n ≤ lo) :
    (a ++ b).extractLsb' lo len = a.extractLsb' (lo - n) len := by
  apply BitVec.eq_of_getLsbD_eq
  intro i hi
  have : ¬ lo + i < n := by omega
  have e : lo + i - n = lo - n + i := by omega
  simp [BitVec.getLsbD_append, this, e]

/-- The high part of a join. -/
theorem extract_append_left {m n : Nat} (a : BitVec m) (b : BitVec n) : (a ++ b).extractLsb' n m = a := by
  rw [extract_append_high a b (Nat.le_refl n)]
  simp

/-- The low part of a join. -/
theorem extract_append_right {m n : Nat} (a : BitVec m) (b : BitVec n) : (a ++ b).extractLsb' 0 n = b := by
  rw [extract_append_low a b (by omega)]
  simp

@[simp] theorem upperHalf_append (u l : Nibble) : upperHalf (u ++ l) = u := extract_append_left u l

@[simp] theorem lowerHalf_append (u l : Nibble) : lowerHalf (u ++ l) = l := extract_append_right u l

@[simp] theorem halves_append (v : Byte) : upperHalf v ++ lowerHalf v = v := by
  revert v
  decide

/-- The bit of a permuted value, counted from the most significant (R12). -/
theorem applyTable_getMsbD {n m : Nat} (t : PermTable n m) (v : BitVec n) (j : Fin m) :
    (applyTable t v).getMsbD j = v.getLsb (t.get j) := by
  simp only [applyTable, BitVec.getMsbD_ofFnBE, j.isLt, dif_pos, Fin.eta]

end Sys2Proof
end

