-- ==== Sys2Proof/Laws/Datapath.lean ====
section
/-! SUPPORT. The structure of the datapath, whatever the tables hold. -/

namespace Sys2Proof.Machine

/-- A round with the same subkey undoes itself (R144): the half it leaves alone is the one F reads. -/
@[simp] theorem feistelRound_feistelRound (rom : Rom) (sk : Byte) (ul : Nibble × Nibble) :
    feistelRound rom sk (feistelRound rom sk ul) = ul := by
  simp [feistelRound]

/-- The swap undoes itself (R145). -/
@[simp] theorem halfSwap_halfSwap (ul : Nibble × Nibble) : halfSwap (halfSwap ul) = ul := rfl

/-- The halves of a byte, as the rounds take them (R131). -/
def halves (v : Byte) : Nibble × Nibble := (upperHalf v, lowerHalf v)

/-- The byte of two halves. -/
def joinHalves (ul : Nibble × Nibble) : Byte := ul.1 ++ ul.2

@[simp] theorem halves_joinHalves (ul : Nibble × Nibble) : halves (joinHalves ul) = ul := by
  simp [halves, joinHalves]

@[simp] theorem joinHalves_halves (v : Byte) : joinHalves (halves v) = v := by
  simp [halves, joinHalves]

/-- XF as a chain: IP, round, swap, round, IP^-1 (R170). -/
theorem transform_eq_chain (rom : Rom) (blk ska skb : Byte) :
    transform rom blk ska skb =
      applyTable rom.ipInv
        (joinHalves (feistelRound rom skb (halfSwap (feistelRound rom ska (halves (applyTable rom.ip blk)))))) :=
  rfl

end Sys2Proof.Machine
end

