-- ==== Sys2Proof/Laws/Decode.lean ====
section
/-! SUPPORT. Request words as numbers: what each field is, and what the encoder writes. -/

namespace Sys2Proof

/-- The number of a KS word is its key (R71). -/
theorem encode_ks_toNat (key : Key) : (encode (.ks key)).toNat = key.toNat := by
  have h : (encode (.ks key)).toNat = (0x0#4 ++ 0#18).toNat <<< 10 ||| key.toNat :=
    BitVec.toNat_append (0x0#4 ++ 0#18) key
  simpa using h

/-- A join of fields, as a number. -/
theorem toNat_append_eq {m n : Nat} (a : BitVec m) (b : BitVec n) :
    (a ++ b).toNat = a.toNat * 2 ^ n + b.toNat := by
  rw [BitVec.toNat_append, Nat.shiftLeft_eq, Nat.mul_comm, ← Nat.two_pow_add_eq_or_of_lt b.isLt]

/-- The number of an XF word (R72). -/
theorem encode_xf_toNat (blk ska skb : Byte) :
    (encode (.xf blk ska skb)).toNat = 2 ^ 28 + skb.toNat * 2 ^ 16 + ska.toNat * 2 ^ 8 + blk.toNat := by
  have h3 : (encode (.xf blk ska skb)).toNat = _ := toNat_append_eq (0x1#4 ++ 0x0#4 ++ skb ++ ska) blk
  have h2 : (0x1#4 ++ 0x0#4 ++ skb ++ ska).toNat = _ := toNat_append_eq (0x1#4 ++ 0x0#4 ++ skb) ska
  have h1 : (0x1#4 ++ 0x0#4 ++ skb).toNat = _ := toNat_append_eq (0x1#4 ++ 0x0#4) skb
  have h0 : (0x1#4 ++ 0x0#4).toNat = 16 := by decide
  omega

/-- The fields of a request word, as numbers (R70 to R72). -/
theorem reqOp_toNat (w : Word) : (reqOp w).toNat = w.toNat / 2 ^ 28 := by
  have := w.isLt
  simp only [reqOp, BitVec.extractLsb'_toNat, Nat.shiftRight_eq_div_pow]
  omega

theorem reqKsReserved_toNat (w : Word) : (reqKsReserved w).toNat = w.toNat / 2 ^ 10 % 2 ^ 18 := by
  simp [reqKsReserved, BitVec.extractLsb'_toNat, Nat.shiftRight_eq_div_pow]

theorem reqKey_toNat (w : Word) : (reqKey w).toNat = w.toNat % 2 ^ 10 := by
  simp [reqKey, BitVec.extractLsb'_toNat]

theorem reqXfReserved_toNat (w : Word) : (reqXfReserved w).toNat = w.toNat / 2 ^ 24 % 2 ^ 4 := by
  simp [reqXfReserved, BitVec.extractLsb'_toNat, Nat.shiftRight_eq_div_pow]

theorem reqSkb_toNat (w : Word) : (reqSkb w).toNat = w.toNat / 2 ^ 16 % 2 ^ 8 := by
  simp [reqSkb, BitVec.extractLsb'_toNat, Nat.shiftRight_eq_div_pow]

theorem reqSka_toNat (w : Word) : (reqSka w).toNat = w.toNat / 2 ^ 8 % 2 ^ 8 := by
  simp [reqSka, BitVec.extractLsb'_toNat, Nat.shiftRight_eq_div_pow]

theorem reqBlk_toNat (w : Word) : (reqBlk w).toNat = w.toNat % 2 ^ 8 := by
  simp [reqBlk, BitVec.extractLsb'_toNat]

/-- A mask of high bits keeps a multiple of its lowest bit. -/
theorem and_high_mask_toNat (w : Word) (lo : Nat) (_ : lo ≤ 32) :
    (w &&& BitVec.allOnes 32 <<< lo).toNat = w.toNat / 2 ^ lo * 2 ^ lo := by
  have e : w &&& BitVec.allOnes 32 <<< lo = w >>> lo <<< lo := by
    apply BitVec.eq_of_getLsbD_eq
    intro i hi
    by_cases hl : i < lo
    · simp [hl, hi]
    · have : lo + (i - lo) = i := by omega
      simp [hl, hi, this, -BitVec.reduceAllOnes]
  have hw := w.isLt
  have : w.toNat / 2 ^ lo * 2 ^ lo ≤ w.toNat := Nat.div_mul_le_self _ _
  rw [e, BitVec.toNat_shiftLeft, BitVec.toNat_ushiftRight, Nat.shiftRight_eq_div_pow, Nat.shiftLeft_eq,
    Nat.mod_eq_of_lt (by omega)]

/-- The row KS matches the words below 2^10. -/
theorem isKs_iff (w : Word) : Word.isKs w = true ↔ w.toNat < 2 ^ 10 := by
  have h := and_high_mask_toNat w 10 (by omega)
  have m : BitVec.allOnes 32 <<< 10 = 0xFFFFFC00#32 := by decide
  rw [m] at h
  simp only [Word.isKs, beq_iff_eq, BitVec.toNat_eq, h]
  simp

/-- The row XF matches the words from 2^28 on whose next four bits are zero. -/
theorem isXf_iff (w : Word) : Word.isXf w = true ↔ 2 ^ 28 ≤ w.toNat ∧ w.toNat < 2 ^ 28 + 2 ^ 24 := by
  have h := and_high_mask_toNat w 24 (by omega)
  have m : BitVec.allOnes 32 <<< 24 = 0xFF000000#32 := by decide
  rw [m] at h
  simp only [Word.isXf, beq_iff_eq, BitVec.toNat_eq, h]
  simp
  omega

end Sys2Proof
end

