-- ==== Sys2Proof/Laws/Flags.lean ====
section
/-! SUPPORT. Reading the fields of a response word back. -/

namespace Sys2Proof.Machine

@[simp] theorem rspStatus_responseWord (st : BitVec 2) (d : BitVec 16) : rspStatus (responseWord st d) = st :=
  (extract_append_high (st ++ 0#14) d (by omega)).trans (extract_append_left st 0#14)

@[simp] theorem rspZero_responseWord (st : BitVec 2) (d : BitVec 16) : rspZero (responseWord st d) = 0#14 :=
  (extract_append_high (st ++ 0#14) d (by omega)).trans (extract_append_right st 0#14)

@[simp] theorem rspData_responseWord (st : BitVec 2) (d : BitVec 16) : rspData (responseWord st d) = d :=
  extract_append_right (st ++ 0#14) d

@[simp] theorem rspDataHigh_responseWord (st : BitVec 2) (a b : Byte) :
    rspDataHigh (responseWord st (a ++ b)) = a :=
  (extract_append_low (st ++ 0#14) (a ++ b) (by omega)).trans (extract_append_left a b)

@[simp] theorem rspDataLow_responseWord (st : BitVec 2) (a b : Byte) :
    rspDataLow (responseWord st (a ++ b)) = b :=
  (extract_append_low (st ++ 0#14) (a ++ b) (by omega)).trans (extract_append_right a b)

@[simp] theorem rspDataHigh_ksResponse (k1 k2 : Byte) : rspDataHigh (ksResponse k1 k2) = k1 :=
  rspDataHigh_responseWord statusOk k1 k2

@[simp] theorem rspDataLow_ksResponse (k1 k2 : Byte) : rspDataLow (ksResponse k1 k2) = k2 :=
  rspDataLow_responseWord statusOk k1 k2

@[simp] theorem rspDataLow_xfResponse (out : Byte) : rspDataLow (xfResponse out) = out :=
  rspDataLow_responseWord statusOk 0#8 out

@[simp] theorem rspStatus_ksResponse (k1 k2 : Byte) : rspStatus (ksResponse k1 k2) = statusOk :=
  rspStatus_responseWord statusOk (k1 ++ k2)

@[simp] theorem rspStatus_xfResponse (out : Byte) : rspStatus (xfResponse out) = statusOk :=
  rspStatus_responseWord statusOk (0#8 ++ out)

@[simp] theorem rspStatus_errorResponse (e : RequestError) : rspStatus (errorResponse e) = errorStatus e :=
  rspStatus_responseWord (errorStatus e) 0#16

/-- The responses the core builds have the layout of R81 and R84. -/
@[simp] theorem isResponse_ksResponse (k1 k2 : Byte) : isResponse (ksResponse k1 k2) = true := by
  simp only [isResponse, rspStatus_ksResponse]
  simp [ksResponse, statusOk, statusUnused]

@[simp] theorem isResponse_xfResponse (out : Byte) : isResponse (xfResponse out) = true := by
  simp only [isResponse, rspStatus_xfResponse]
  simp [xfResponse, statusOk, statusUnused]

@[simp] theorem isResponse_errorResponse (e : RequestError) : isResponse (errorResponse e) = true := by
  cases e <;> decide

end Sys2Proof.Machine
end

