-- ==== Sys2Proof/Laws/State.lean ====
section
/-! SUPPORT. One lemma per field per update, so that no later proof unfolds a record update. -/

namespace Sys2Proof.Machine

@[simp] theorem State.consume_rom (s : State) : s.consume.rom = s.rom := rfl
@[simp] theorem State.consume_hosts (s : State) : s.consume.hosts = s.hosts := rfl
@[simp] theorem State.consume_inputs (s : State) : s.consume.inputs = s.inputs.tail := rfl

@[simp] theorem State.modifyHost_rom (s : State) (h : Nat) (f) : (s.modifyHost h f).rom = s.rom := rfl
@[simp] theorem State.modifyHost_hosts (s : State) (h : Nat) (f) : (s.modifyHost h f).hosts = s.hosts.modify h f := rfl
@[simp] theorem State.modifyHost_inputs (s : State) (h : Nat) (f) : (s.modifyHost h f).inputs = s.inputs := rfl

@[simp] theorem State.resetInput_rom (s : State) : s.resetInput.rom = s.rom := rfl
@[simp] theorem State.resetInput_hosts (s : State) : s.resetInput.hosts = s.hosts.map HostAgent.restart := rfl
@[simp] theorem State.resetInput_inputs (s : State) : s.resetInput.inputs = s.inputs.tail := rfl

@[simp] theorem State.connectInput_rom (s : State) (p) : (s.connectInput p).rom = s.rom := rfl
@[simp] theorem State.connectInput_hosts (s : State) (p) :
    (s.connectInput p).hosts = s.hosts ++ [HostAgent.start p] := rfl
@[simp] theorem State.connectInput_inputs (s : State) (p) : (s.connectInput p).inputs = s.inputs.tail := rfl

@[simp] theorem State.presentRequest_rom (s : State) (w) : (s.presentRequest w).rom = s.rom := rfl
@[simp] theorem State.presentRequest_inputs (s : State) (w) :
    (s.presentRequest w).inputs = .serve 0 :: s.inputs := rfl

@[simp] theorem HostAgent.start_prog (p) : (HostAgent.start p).prog = p := rfl
@[simp] theorem HostAgent.start_pc (p) : (HostAgent.start p).pc = 0 := rfl
@[simp] theorem HostAgent.start_key (p) : (HostAgent.start p).key = none := rfl
@[simp] theorem HostAgent.start_sk1 (p) : (HostAgent.start p).sk1 = none := rfl
@[simp] theorem HostAgent.start_sk2 (p) : (HostAgent.start p).sk2 = none := rfl
@[simp] theorem HostAgent.start_fault (p) : (HostAgent.start p).fault = none := rfl
@[simp] theorem HostAgent.start_requests (p) : (HostAgent.start p).requests = [] := rfl
@[simp] theorem HostAgent.start_responses (p) : (HostAgent.start p).responses = [] := rfl
@[simp] theorem HostAgent.start_out (p) : (HostAgent.start p).out = [] := rfl

section
variable (a : HostAgent) (u : Purpose) (w : Word) (f : HostFault)

@[simp] theorem HostAgent.send_prog : (a.send u w).prog = a.prog := rfl
@[simp] theorem HostAgent.send_pc : (a.send u w).pc = a.pc + 1 := rfl
@[simp] theorem HostAgent.send_key : (a.send u w).key = a.key := rfl
@[simp] theorem HostAgent.send_sk1 : (a.send u w).sk1 = a.sk1 := rfl
@[simp] theorem HostAgent.send_sk2 : (a.send u w).sk2 = a.sk2 := rfl
@[simp] theorem HostAgent.send_fault : (a.send u w).fault = a.fault := rfl
@[simp] theorem HostAgent.send_requests :
    (a.send u w).requests = a.requests ++ [{ purpose := u, word := w }] := rfl
@[simp] theorem HostAgent.send_responses : (a.send u w).responses = a.responses := rfl
@[simp] theorem HostAgent.send_out : (a.send u w).out = a.out := rfl

@[simp] theorem HostAgent.record_prog : (a.record f).prog = a.prog := rfl
@[simp] theorem HostAgent.record_pc : (a.record f).pc = a.pc := rfl
@[simp] theorem HostAgent.record_key : (a.record f).key = a.key := rfl
@[simp] theorem HostAgent.record_sk1 : (a.record f).sk1 = a.sk1 := rfl
@[simp] theorem HostAgent.record_sk2 : (a.record f).sk2 = a.sk2 := rfl
@[simp] theorem HostAgent.record_fault : (a.record f).fault = (a.fault <|> some f) := rfl
@[simp] theorem HostAgent.record_requests : (a.record f).requests = a.requests := rfl
@[simp] theorem HostAgent.record_responses : (a.record f).responses = a.responses := rfl
@[simp] theorem HostAgent.record_out : (a.record f).out = a.out := rfl

@[simp] theorem HostAgent.answer_prog : (a.answer w).prog = a.prog := by unfold answer; split <;> rfl
@[simp] theorem HostAgent.answer_pc : (a.answer w).pc = a.pc := by unfold answer; split <;> rfl
@[simp] theorem HostAgent.answer_key : (a.answer w).key = a.key := by unfold answer; split <;> rfl
@[simp] theorem HostAgent.answer_sk1 : (a.answer w).sk1 = a.sk1 := by unfold answer; split <;> rfl
@[simp] theorem HostAgent.answer_sk2 : (a.answer w).sk2 = a.sk2 := by unfold answer; split <;> rfl
@[simp] theorem HostAgent.answer_fault : (a.answer w).fault = a.fault := by unfold answer; split <;> rfl
@[simp] theorem HostAgent.answer_out : (a.answer w).out = a.out := by unfold answer; split <;> rfl

end

end Sys2Proof.Machine
end

