-- ==== Sys2Proof/Laws/Ops.lean ====
section
/-! SUPPORT. What each shared operation can do, said once. -/

namespace Sys2Proof.Machine

/-- A queue whose oldest request is `r` is answered by moving `r` to the responses. -/
theorem HostAgent.answer_of_requests {a : HostAgent} {r : Request} {more : List Request} (h : a.requests = r :: more)
    (w : Word) :
    a.answer w =
      { a with requests := more, responses := a.responses ++ [{ purpose := r.purpose, word := w }] } := by
  simp [answer, h]

/-- When a request is at hand: the next input services a host whose oldest request it is. -/
theorem State.current_eq_some {s : State} {h : Nat} {r : Request} :
    s.current = some (h, r) ↔
      ∃ rest a more, s.inputs = .serve h :: rest ∧ s.hosts[h]? = some a ∧ a.requests = r :: more := by
  constructor
  · intro e
    unfold State.current at e
    split at e
    · rename_i k rest hi
      split at e
      · rename_i a ha
        split at e
        · rename_i q more hq
          simp only [Option.some.injEq, Prod.mk.injEq] at e
          obtain ⟨rfl, rfl⟩ := e
          exact ⟨rest, a, more, hi, ha, hq⟩
        · cases e
      · cases e
    · cases e
  · rintro ⟨rest, a, more, hi, ha, hr⟩
    simp [State.current, hi, ha, hr]

/-- Changing host `h` is setting it. -/
theorem State.modifyHost_eq_set {s : State} {h : Nat} {a : HostAgent} (ha : s.hosts[h]? = some a)
    (f : HostAgent → HostAgent) : s.modifyHost h f = { s with hosts := s.hosts.set h (f a) } := by
  simp [State.modifyHost, List.modify_eq_set_getElem?, ha]

/-- The whole effect of answering the request at hand. -/
theorem State.respond_eq {s : State} {h : Nat} {r : Request} (hc : s.current = some (h, r)) (w : Word) :
    ∃ rest a more, s.inputs = .serve h :: rest ∧ s.hosts[h]? = some a ∧ a.requests = r :: more ∧
      s.respond w = { s with
        inputs := rest
        hosts := s.hosts.set h
          { a with requests := more, responses := a.responses ++ [{ purpose := r.purpose, word := w }] } } := by
  obtain ⟨rest, a, more, hi, ha, hr⟩ := State.current_eq_some.mp hc
  refine ⟨rest, a, more, hi, ha, hr, ?_⟩
  simp [State.respond, hc, State.modifyHost_eq_set ha, HostAgent.answer_of_requests hr, State.consume, hi]

/-- With no request at hand nothing is answered. -/
theorem State.respond_of_current_none {s : State} (hc : s.current = none) (w : Word) : s.respond w = s := by
  simp [State.respond, hc]

/-- An answer never touches the tables. -/
@[simp] theorem State.respond_rom (s : State) (w : Word) : (s.respond w).rom = s.rom := by
  unfold State.respond
  split <;> rfl

/-- A presented request is the one at hand, on behalf of the first host. -/
theorem State.presentRequest_current (s : State) (w : Word) :
    (s.presentRequest w).current = some (0, { purpose := .raw, word := w }) := by
  cases hs : s.hosts <;> simp [State.presentRequest, State.current, HostAgent.withRequest, hs]

end Sys2Proof.Machine
end

