-- ==== Sys2Proof/Laws/Host.lean ====
section
/-! SUPPORT. What a host can do: one lemma per action. -/

namespace Sys2Proof.Machine

/-- A host with a record takes no further step. -/
theorem HostAgent.issue_of_fault {a : HostAgent} {f : HostFault} (h : a.fault = some f) : a.issue = a := by
  simp [issue, h]

/-- A host at the end of its list issues nothing. -/
theorem HostAgent.issue_at_end {a : HostAgent} (h : a.prog[a.pc]? = none) : a.issue = a := by
  unfold issue
  split
  · simp_all
  · rfl

/-- A host with no record issues the line it stands at. -/
theorem HostAgent.issue_line {a : HostAgent} {l : Line} (hf : a.fault = none) (h : a.prog[a.pc]? = some l) :
    a.issue = a.issueLine l := by
  simp [issue, hf, h]

/-- A host with a record takes no response. -/
theorem HostAgent.take_of_fault {a : HostAgent} {f : HostFault} (h : a.fault = some f) : a.take = some a := by
  simp [take, h]

/-- A host with no response ready waits. -/
theorem HostAgent.take_of_empty {a : HostAgent} (h : a.responses = []) : a.take = some a := by
  unfold take
  split
  · simp_all
  · rfl

/-- A host with no record takes its oldest response. -/
theorem HostAgent.take_response {a : HostAgent} {r : Response} {more : List Response} (hf : a.fault = none)
    (h : a.responses = r :: more) :
    a.take = if rspStatus r.word = statusUnused then none else some ({ a with responses := more }.absorb r) := by
  simp [take, hf, h]

/-- The two ways of writing the subkey cells' joint content. -/
theorem HostAgent.subkeys_eq_some {a : HostAgent} {k1 k2 : Byte} :
    a.subkeys = some (k1, k2) ↔ a.sk1 = some k1 ∧ a.sk2 = some k2 := by
  unfold subkeys
  split <;> simp_all

theorem HostAgent.subkeys_eq_none {a : HostAgent} : a.subkeys = none ↔ a.sk1 = none ∨ a.sk2 = none := by
  unfold subkeys
  split
  · simp_all
  · rename_i h
    cases h1 : a.sk1 <;> cases h2 : a.sk2 <;> simp_all

/-- A session line with a key in range: the one KS request, and the new session's cells. -/
theorem HostAgent.issueSession_of_range (a : HostAgent) {key : Nat} (h : key < 1024) :
    a.issueSession key =
      { a with key := some (BitVec.ofNat 10 key), sk1 := none, sk2 := none }.send
        (.session (BitVec.ofNat 10 key)) (encode (.ks (BitVec.ofNat 10 key))) := by
  have hr : 0 ≤ (key : Int) ∧ (key : Int) < 1024 := by omega
  simp only [issueSession, if_pos hr, BitVec.ofInt_natCast]

/-- A session line with a key out of range: only the record. -/
theorem HostAgent.issueSession_out_of_range (a : HostAgent) {key : Int} (h : key < 0 ∨ 1024 ≤ key) :
    a.issueSession key = a.record .keyOutOfRange := by
  have hr : ¬ (0 ≤ key ∧ key < 1024) := by omega
  simp only [issueSession, if_neg hr]

@[simp] theorem HostAgent.restart_eq (a : HostAgent) : a.restart = HostAgent.start a.prog := rfl

end Sys2Proof.Machine
end

