-- ==== Sys2Proof/Laws/PerInstr.lean ====
section
/-! SUPPORT. Statements made of every instruction, one lemma per constructor. -/

namespace Sys2Proof.Laws.EncodesToItsRow

/-- An instruction is well formed, and its word matches its own row of spec/opcode_table.json and no other. -/
def Statement (i : Instr) : Prop :=
  i.wellFormed = true ∧
  match i with
  | .ks _ => Word.isKs (encode i) = true ∧ Word.isXf (encode i) = false
  | .xf _ _ _ => Word.isKs (encode i) = false ∧ Word.isXf (encode i) = true

theorem ks (key : Key) : Statement (.ks key) := by
  have h := encode_ks_toNat key
  have := key.isLt
  refine ⟨rfl, ?_, ?_⟩
  · rw [isKs_iff]; omega
  · rw [← Bool.not_eq_true, isXf_iff]; omega

theorem xf (blk ska skb : Byte) : Statement (.xf blk ska skb) := by
  have h := encode_xf_toNat blk ska skb
  have := blk.isLt
  have := ska.isLt
  have := skb.isLt
  refine ⟨rfl, ?_, ?_⟩
  · rw [← Bool.not_eq_true, isKs_iff]; omega
  · rw [isXf_iff]; omega

end Sys2Proof.Laws.EncodesToItsRow
end

