-- ==== Sys2Proof/Laws/Step.lean ====
section
/-! SUPPORT. What a step can do: one equation per input, and one case analysis. -/

namespace Sys2Proof.Machine

/-- Every instruction answers the request at hand with its response, and does nothing else. -/
theorem exec_eq (i : Instr) (s : State) : exec i s = .next (s.respond (instrAnswer s.rom i)) := by
  cases i <;> rfl

theorem step_no_input {s : State} (h : s.inputs = []) : step s = .next s := by simp [step, h]

theorem step_issue {s : State} {h : Nat} {rest : List Input} (e : s.inputs = .issue h :: rest) :
    step s = s.issueInput h := by simp [step, e]

theorem step_take {s : State} {h : Nat} {rest : List Input} (e : s.inputs = .take h :: rest) :
    step s = s.takeInput h := by simp [step, e]

theorem step_reset {s : State} {rest : List Input} (e : s.inputs = .reset :: rest) :
    step s = .next s.resetInput := by simp [step, e]

theorem step_connect {s : State} {prog : List Line} {rest : List Input} (e : s.inputs = .connect prog :: rest) :
    step s = .next (s.connectInput prog) := by simp [step, e]

/-- A request at hand is answered with its response, well formed or not. -/
theorem step_serve {s : State} {h : Nat} {r : Request} (hc : s.current = some (h, r)) :
    step s = .next (s.respond (answerWord s.rom r.word)) := by
  obtain ⟨rest, a, more, hi, ha, hr⟩ := State.current_eq_some.mp hc
  simp only [step, hi, hc, answerWord]
  split <;> simp [exec_eq, State.respondError, *]

/-- The core at rest: the host it would service has no unanswered request, or does not exist. -/
theorem step_serve_idle {s : State} {h : Nat} {rest : List Input} (e : s.inputs = .serve h :: rest)
    (hc : s.current = none) : step s = s.idleServe h := by simp [step, e, hc]

/-- The five ways a step can answer a next state (and the sixth, no input). -/
theorem step_cases {s t : State} (e : step s = .next t) :
    (s.inputs = [] ∧ t = s) ∨
    (∃ h rest a, s.inputs = .issue h :: rest ∧ s.hosts[h]? = some a ∧
      t = { s with inputs := rest, hosts := s.hosts.set h a.issue }) ∨
    (∃ h rest a r more, s.inputs = .serve h :: rest ∧ s.hosts[h]? = some a ∧ a.requests = r :: more ∧
      t = { s with
        inputs := rest
        hosts := s.hosts.set h
          { a with
            requests := more
            responses := a.responses ++ [r.answered s.rom] } }) ∨
    (∃ h rest a, s.inputs = .serve h :: rest ∧ s.hosts[h]? = some a ∧ a.requests = [] ∧
      t = { s with inputs := rest }) ∨
    (∃ h rest a b, s.inputs = .take h :: rest ∧ s.hosts[h]? = some a ∧ a.take = some b ∧
      t = { s with inputs := rest, hosts := s.hosts.set h b }) ∨
    (∃ rest, s.inputs = .reset :: rest ∧
      t = { s with inputs := rest, hosts := s.hosts.map HostAgent.restart }) ∨
    (∃ prog rest, s.inputs = .connect prog :: rest ∧
      t = { s with inputs := rest, hosts := s.hosts ++ [HostAgent.start prog] }) := by
  cases hi : s.inputs with
  | nil => rw [step_no_input hi] at e; injection e with e; simp [e]
  | cons inp rest =>
    cases inp with
    | issue h =>
      rw [step_issue hi, State.issueInput] at e
      split at e
      · rename_i hl
        injection e with e
        obtain ⟨a, ha⟩ : ∃ a, s.hosts[h]? = some a := ⟨_, List.getElem?_eq_getElem hl⟩
        right; left
        refine ⟨h, rest, a, rfl, ha, ?_⟩
        rw [← e, State.modifyHost_eq_set ha]
        simp [State.consume, hi]
      · cases e
    | serve h =>
      cases hc : s.current with
      | some c =>
        obtain ⟨k, r⟩ := c
        obtain ⟨rest', a, more, hi', ha, hr, he⟩ := State.respond_eq hc (answerWord s.rom r.word)
        rw [step_serve hc, he] at e
        injection e with e
        rw [hi] at hi'
        injection hi' with h1 h2
        injection h1 with h1
        subst h1 h2
        right; right; left
        exact ⟨h, rest, a, r, more, rfl, ha, hr, e.symm⟩
      | none =>
        rw [step_serve_idle hi hc, State.idleServe] at e
        split at e
        · rename_i hl
          injection e with e
          obtain ⟨a, ha⟩ : ∃ a, s.hosts[h]? = some a := ⟨_, List.getElem?_eq_getElem hl⟩
          have hr : a.requests = [] := by
            cases hq : a.requests with
            | nil => rfl
            | cons r more =>
              have := State.current_eq_some.mpr ⟨rest, a, more, hi, ha, hq⟩
              rw [hc] at this
              cases this
          right; right; right; left
          exact ⟨h, rest, a, rfl, ha, hr, by rw [← e]; simp [State.consume, hi]⟩
        · cases e
    | take h =>
      rw [step_take hi, State.takeInput] at e
      split at e
      · rename_i a ha
        split at e
        · rename_i b hb
          injection e with e
          right; right; right; right; left
          refine ⟨h, rest, a, b, rfl, ha, hb, ?_⟩
          rw [← e, State.modifyHost_eq_set ha]
          simp [State.consume, hi]
        · cases e
      · cases e
    | reset =>
      rw [step_reset hi] at e
      injection e with e
      right; right; right; right; right; left
      exact ⟨rest, rfl, by rw [← e]; simp [State.resetInput, State.consume, hi]⟩
    | connect prog =>
      rw [step_connect hi] at e
      injection e with e
      right; right; right; right; right; right
      exact ⟨prog, rest, rfl, by rw [← e]; simp [State.connectInput, State.consume, hi]⟩

end Sys2Proof.Machine
end

