-- ==== Sys2Proof/Laws/Run.lean ====
section
/-! SUPPORT. Runs of several steps, one step at a time. -/

namespace Sys2Proof.Machine

/-- The host's `run` unfolds to one step and the rest. -/
theorem core_run_unfold (M : Host.Core) (n : Nat) (s : M.State) :
    M.run (n + 1) s =
      match M.step s with
      | .next t => M.run n t
      | .fault r => .fault r
      | .refused r => .refused r := rfl

theorem run_zero (s : State) : core.run 0 s = .next s := rfl

/-- A run whose first step goes on. -/
theorem run_of_next {s t : State} (h : step s = .next t) (n : Nat) : core.run (n + 1) s = core.run n t := by
  have := core_run_unfold core n s
  rw [show core.step s = .next t from h] at this
  exact this

/-- A run whose first step faults. -/
theorem run_of_fault {s : State} {r : Fault} (h : step s = .fault r) (n : Nat) : core.run (n + 1) s = .fault r := by
  have := core_run_unfold core n s
  rw [show core.step s = .fault r from h] at this
  exact this

/-- Setting a host to what it is changes nothing. -/
theorem hosts_set_same {s : State} {h : Nat} {a : HostAgent} (ha : s.hosts[h]? = some a) :
    s.hosts.set h a = s.hosts := by
  apply List.ext_getElem?
  intro i
  rw [List.getElem?_set]
  split
  · subst_vars
    split
    · exact ha.symm
    · simp_all
  · rfl

/-- The step of the input `issue h`, for a host that exists. -/
theorem step_issue_eq {s : State} {h : Nat} {a : HostAgent} {rest : List Input} (hi : s.inputs = .issue h :: rest)
    (ha : s.hosts[h]? = some a) : step s = .next { s with inputs := rest, hosts := s.hosts.set h a.issue } := by
  have hl := (List.getElem?_eq_some_iff.mp ha).1
  rw [step_issue hi, State.issueInput, if_pos hl, State.modifyHost_eq_set ha]
  simp [State.consume, hi]

/-- The step of the input `take h`, for a host whose oldest response has a rule. -/
theorem step_take_eq {s : State} {h : Nat} {a b : HostAgent} {rest : List Input} (hi : s.inputs = .take h :: rest)
    (ha : s.hosts[h]? = some a) (hb : a.take = some b) :
    step s = .next { s with inputs := rest, hosts := s.hosts.set h b } := by
  rw [step_take hi, State.takeInput]
  simp only [ha, hb, State.modifyHost_eq_set ha]
  simp [State.consume, hi]

/-- The step of the input `serve h`, for a host with an unanswered request. -/
theorem step_serve_eq {s : State} {h : Nat} {a : HostAgent} {r : Request} {more : List Request} {rest : List Input}
    (hi : s.inputs = .serve h :: rest) (ha : s.hosts[h]? = some a) (hr : a.requests = r :: more) :
    step s = .next { s with
      inputs := rest
      hosts := s.hosts.set h { a with requests := more, responses := a.responses ++ [r.answered s.rom] } } := by
  have hc := State.current_eq_some.mpr ⟨rest, a, more, hi, ha, hr⟩
  rw [step_serve hc, State.respond, hc]
  simp only [State.modifyHost_eq_set ha, HostAgent.answer_of_requests hr, State.consume, hi]
  rfl

end Sys2Proof.Machine
end

