-- ==== Sys2Proof/Tests/Slice0.lean ====
section
/-! SUPPORT. Small tests. Expected values come from spec/95_test_vectors.md (the vector is named) or from a rule's own worked
example; the witnesses at the end show, for every statement with hypotheses, a concrete state that meets them. -/

namespace Sys2Proof.Tests
open Sys2Proof Sys2Proof.Machine

/-! ## Ill-formed words are refused, one for each check -/

theorem test_word_with_ks_reserved_bit_is_ill_formed : Word.isKs 0x00000400#32 = false := by decide
theorem test_word_with_xf_reserved_bit_is_ill_formed : Word.isXf 0x11000000#32 = false := by decide
theorem test_word_with_reserved_opcode_is_ill_formed : Word.isRequest 0x20000000#32 = false := by decide
theorem test_well_formed_words : Word.isKs 0x00000282#32 = true ∧ Word.isXf 0x1043A462#32 = true := by decide
theorem test_every_instruction_is_well_formed (i : Instr) : i.wellFormed = true := by cases i <;> rfl

/-! ## Decoding (V-DEC), at the boundaries of the five ranges of R77 -/

theorem test_decode_ks_written_out : decode 0b00000000000000000000001010000010#32 = .ok (.ks 642#10) := by decide
theorem test_decode_xf_written_out :
    decode 0b00010000010000111010010001100010#32 = .ok (.xf 0x62#8 0xA4#8 0x43#8) := by decide
theorem test_decode_ks_range : decode 0x00000000#32 = .ok (.ks 0#10) ∧ decode 0x000003FF#32 = .ok (.ks 1023#10) := by
  decide
theorem test_decode_ks_reserved_range :
    decode 0x00000400#32 = .error .reserved ∧ decode 0x0FFFFFFF#32 = .error .reserved := by decide
theorem test_decode_xf_range :
    decode 0x10000000#32 = .ok (.xf 0 0 0) ∧ decode 0x10FFFF00#32 = .ok (.xf 0x00 0xFF 0xFF) ∧
      decode 0x10FFFFFF#32 = .ok (.xf 0xFF 0xFF 0xFF) := by decide
theorem test_decode_xf_reserved_range :
    decode 0x11000000#32 = .error .reserved ∧ decode 0x1F43A462#32 = .error .reserved ∧
      decode 0x1FFFFFFF#32 = .error .reserved := by decide
theorem test_decode_reserved_opcode_range :
    decode 0x20000000#32 = .error .opcode ∧ decode 0x2FFFFFFF#32 = .error .opcode ∧
      decode 0xF0000282#32 = .error .opcode ∧ decode 0xFFFFFFFF#32 = .error .opcode := by decide
theorem test_encode_ks : encode (.ks 642) = 0x00000282#32 := by decide
theorem test_encode_xf : encode (.xf 0x91 0x43 0xA4) = 0x10A44391#32 := by decide
theorem test_table_word_ignores_bits_above_its_row : decodeTableWord 32 (2 ^ 32 + 0x282) = some (.ks 642) := by decide

/-! ## The datapath -/

/-- Section 2.1: P10 and P8 on single bits, rol5 where bits wrap. -/
theorem test_key_tables :
    applyTable Rom.published.p10 0b1000000000#10 = 0b0000001000#10 ∧
    applyTable Rom.published.p10 0b0000000001#10 = 0b0000010000#10 ∧
    applyTable Rom.published.p8 0b0010000000#10 = 0b01000000#8 ∧
    applyTable Rom.published.p8 0b1000000000#10 = 0#8 ∧
    rol5 0b10000#5 1 = 0b00001#5 ∧ rol5 0b11000#5 2 = 0b00011#5 := by decide +kernel

/-- Section 2.2: IP, IP^-1, EP and P4. -/
theorem test_block_tables :
    applyTable Rom.published.ip 0b10000000#8 = 0b00010000#8 ∧
    applyTable Rom.published.ipInv 0b10000000#8 = 0b01000000#8 ∧
    applyTable Rom.published.ep 0b0001#4 = 0b10000010#8 ∧
    applyTable Rom.published.ep 0b1000#4 = 0b01000001#8 ∧
    applyTable Rom.published.p4 0b0001#4 = 0b0100#4 := by decide +kernel

/-- V-KS-3, every intermediate value. -/
theorem test_ks_642 : ksPath Rom.published 642#10 =
    { p := 0b1000001100, kl0 := 0b10000, kr0 := 0b01100, kl1 := 0b00001, kr1 := 0b11000, j1 := 0b0000111000,
      k1 := 0b10100100, kl2 := 0b00100, kr2 := 0b00011, j2 := 0b0010000011, k2 := 0b01000011 } := by decide +kernel

/-- V-KS-9. -/
theorem test_ks_992 : ksAnswer Rom.published 992#10 = 0x00009455#32 := by decide +kernel

/-- V-F-3, every intermediate value (R142's worked example). -/
theorem test_round_function : fPath Rom.published 0b0001#4 0xA4#8 =
    { e := 0b10000010, x := 0b00100110, xa := 0b0010, xb := 0b0110, r0 := 0, c0 := 1, r1 := 0, c1 := 3,
      s0 := 0, s1 := 3, c := 0b0011, fo := 0b0110 } := by decide +kernel

/-- V-R-1, and the swap of it. -/
theorem test_round_and_swap :
    feistelRound Rom.published 0xA4#8 (0b1010#4, 0b0001#4) = (0b1100#4, 0b0001#4) ∧
    halfSwap (0b1100#4, 0b0001#4) = (0b0001#4, 0b1100#4) := by decide +kernel

/-- V-XF-2, every intermediate value. -/
theorem test_xf_b : xfPath Rom.published 0x62#8 0xA4#8 0x43#8 =
    { q := 0b10100001, u1 := 0b1010, l1 := 0b0001, u2 := 0b0001, l2 := 0b1100, y := 0b00011100, out := 0x91 } := by
  decide +kernel

/-- V-XF-9 (subkeys of equal value, block 0x00), V-XF-11 (the published textbook example) and the wrong direction of R241. -/
theorem test_xf_values :
    xfAnswer Rom.published 0x00#8 0xFF#8 0xFF#8 = 0x000000EB#32 ∧
    xfAnswer Rom.published 0xBD#8 0xA4#8 0x43#8 = 0x00000075#32 ∧
    transform Rom.published 0x91#8 0xA4#8 0x43#8 = 0x56#8 := by decide +kernel

/-- R84. -/
theorem test_error_words : errorResponse .opcode = 0x40000000#32 ∧ errorResponse .reserved = 0x80000000#32 := by decide

/-- V-SRC-6: "bro" and "bso" under key 642 differ in the second byte only. -/
theorem test_stream_bytes_are_independent :
    cryptStream Rom.published .encrypt 0xA4 0x43 [0x62, 0x72, 0x6F] = [0x91, 0x77, 0x2F] ∧
    cryptStream Rom.published .encrypt 0xA4 0x43 [0x62, 0x73, 0x6F] = [0x91, 0x27, 0x2F] ∧
    cryptStream Rom.published .decrypt 0xA4 0x43 [0x91, 0x77, 0x2F] = [0x62, 0x72, 0x6F] := by decide +kernel

/-! ## The assembler (R85, R86) -/

theorem test_assemble_xf :
    assembleLine ['x', 'f', ' ', '0', 'x', '6', '2', ',', ' ', '1', '6', '4', ',', '0', 'b', '1', '1', ' ', ';', 'c'] =
      .ok (some (.xf 0x62 164 3)) := by decide
theorem test_assemble_character : assembleLine ['e', 'n', 'c', ' ', '\'', 'b', '\''] = .ok (some (.enc 0x62)) := by decide
/-- Log entry 7: the literal is read before the comment. -/
theorem test_assemble_semicolon_literal :
    assembleLine ['e', 'n', 'c', ' ', '\'', ';', '\'', ';', 'c'] = .ok (some (.enc 0x3B)) := by decide
/-- Log entry 7: no separator is needed before a character literal. -/
theorem test_assemble_literal_ends_word :
    assembleLine ['e', 'n', 'c', '\'', 'b', '\''] = .ok (some (.enc 0x62)) := by decide
theorem test_assemble_refuses_wide_key : assembleLine ['k', 's', ' ', '1', '0', '2', '4'] = .error .operandRange := by
  decide
theorem test_assemble_program :
    assemble ['s', 'e', 's', 's', 'i', 'o', 'n', ' ', '6', '4', '2', '\n', ';', '\n', 'd', 'e', 'c', ' ', '9'] =
      .ok [.session 642, .dec 9] := by decide

/-! ## One step on a small machine -/

/-- A machine with the published tables. -/
def machine (hosts : List HostAgent) (inputs : List Input) : State := { rom := Rom.published, hosts, inputs }

/-- A host with one raw request outstanding. -/
def asking (w : Word) : HostAgent := { HostAgent.start [] with requests := [{ purpose := .raw, word := w }] }

/-- A host at a line. -/
def standing (line : Line) : HostAgent := HostAgent.start [line]

/-- A host in the session of key 642 (V-KS-3). -/
def inSession (line : Line) : HostAgent :=
  { standing line with key := some 642, sk1 := some 0xA4, sk2 := some 0x43 }

/-- A host with one response to take. -/
def holding (host : HostAgent) (purpose : Purpose) (w : Word) : HostAgent :=
  { host with responses := [{ purpose := purpose, word := w }] }

/-- The state a step goes on to. -/
def after (s : State) : Option State :=
  match step s with
  | .next t => some t
  | .fault _ => none
  | .refused _ => none

theorem test_step_ks : after (machine [asking 0x282] [.serve 0]) =
    some (machine [holding (HostAgent.start []) .raw 0x0000A443] []) := by decide +kernel
theorem test_step_xf : after (machine [asking 0x1043A462] [.serve 0]) =
    some (machine [holding (HostAgent.start []) .raw 0x00000091] []) := by decide +kernel
theorem test_step_err_opcode : after (machine [asking 0x2FFFFFFF] [.serve 0]) =
    some (machine [holding (HostAgent.start []) .raw 0x40000000] []) := by decide
theorem test_step_err_reserved : after (machine [asking 0x00000400] [.serve 0]) =
    some (machine [holding (HostAgent.start []) .raw 0x80000000] []) := by decide
theorem test_placed_word_runs : after (State.reset.withFetchWord 32 0x282) =
    some (machine [holding (HostAgent.start []) .raw 0x0000A443] []) := by decide +kernel

/-- P1, line 0: the request of `session 642`. -/
theorem test_issue_session : after (machine [standing (.session 642)] [.issue 0]) =
    some (machine [{ standing (.session 642) with
      pc := 1, key := some 642, requests := [{ purpose := .session 642, word := 0x00000282 }] }] []) := by decide
/-- P4's last sentence. -/
theorem test_issue_key_out_of_range : after (machine [standing (.session 1024)] [.issue 0]) =
    some (machine [{ standing (.session 1024) with fault := some .keyOutOfRange }] []) := by decide
/-- R207: the range has two ends. -/
theorem test_issue_negative_key : after (machine [standing (.session (-1))] [.issue 0]) =
    some (machine [{ standing (.session (-1)) with fault := some .keyOutOfRange }] []) := by decide
/-- P1, line 1, and R86's example. -/
theorem test_issue_enc : after (machine [inSession (.enc 0x62)] [.issue 0]) =
    some (machine [{ inSession (.enc 0x62) with
      pc := 1, requests := [{ purpose := .block, word := 0x1043A462 }] }] []) := by decide
/-- P2, line 1, and R86's example. -/
theorem test_issue_dec : after (machine [inSession (.dec 0x91)] [.issue 0]) =
    some (machine [{ inSession (.dec 0x91) with
      pc := 1, requests := [{ purpose := .block, word := 0x10A44391 }] }] []) := by decide
/-- P4. -/
theorem test_issue_enc_unwritten : after (machine [standing (.enc 0x62)] [.issue 0]) =
    some (machine [{ standing (.enc 0x62) with fault := some .subkeyUnwritten }] []) := by decide
/-- P3, line 6: a raw malformed word is issued unchanged. -/
theorem test_issue_word : after (machine [standing (.word 0x400)] [.issue 0]) =
    some (machine [{ standing (.word 0x400) with
      pc := 1, requests := [{ purpose := .raw, word := 0x400 }] }] []) := by decide
/-- P1, line 0: the cells it writes. -/
theorem test_take_session :
    after (machine [holding { HostAgent.start [] with key := some 642 } (.session 642) 0x0000A443] [.take 0]) =
      some (machine [{ HostAgent.start [] with key := some 642, sk1 := some 0xA4, sk2 := some 0x43 }] []) := by decide
/-- P1, line 1: the byte it appends. -/
theorem test_take_block : after (machine [holding (HostAgent.start []) .block 0x00000091] [.take 0]) =
    some (machine [{ HostAgent.start [] with out := [.byte 0x91] }] []) := by decide
/-- P3, line 0 to 5: a raw line appends the whole word of an OK response and writes no cell. -/
theorem test_take_raw_ok : after (machine [holding (HostAgent.start []) .raw 0x0000FFFF] [.take 0]) =
    some (machine [{ HostAgent.start [] with out := [.response 0x0000FFFF] }] []) := by decide
/-- P3, line 7: a raw line takes an error response as it comes (R206). -/
theorem test_take_raw_error : after (machine [holding (HostAgent.start []) .raw 0x40000000] [.take 0]) =
    some (machine [{ HostAgent.start [] with out := [.response 0x40000000] }] []) := by decide
/-- R206. -/
theorem test_take_block_error : after (machine [holding (HostAgent.start []) .block 0x80000000] [.take 0]) =
    some (machine [{ HostAgent.start [] with fault := some .coreError }] []) := by decide
/-- R230, R231. -/
theorem test_reset_input : after (machine [{ inSession (.enc 1) with pc := 1, fault := some .coreError }] [.reset]) =
    some (machine [standing (.enc 1)] []) := by decide

/-! ## Witnesses: the hypotheses of the statements can be met -/

theorem witness_AcceptedWordIsTheEncodedWord : decode 0x10FFFF00#32 = .ok (.xf 0x00 0xFF 0xFF) := by decide

theorem witness_DecoderFollowsRangesOfTheWord :
    (0x3FF#32).toNat < 2 ^ 10 ∧
    (2 ^ 10 ≤ (0x400#32).toNat ∧ (0x0FFFFFFF#32).toNat < 2 ^ 28) ∧
    (2 ^ 28 ≤ (0x10000000#32).toNat ∧ (0x10FFFFFF#32).toNat < 2 ^ 28 + 2 ^ 24) ∧
    (2 ^ 28 + 2 ^ 24 ≤ (0x11000000#32).toNat ∧ (0x1FFFFFFF#32).toNat < 2 ^ 29) ∧
    2 ^ 29 ≤ (0x20000000#32).toNat := by decide

theorem witness_RotationWrapsInsideTheHalf : ((1 = 1 ∨ 1 = 2) ∧ 4 < 5) ∧ ((2 = 1 ∨ 2 = 2) ∧ 4 < 5) := by decide

/-- Meets the hypothesis of KsAnswersTheDerivedSubkeys and of XfAnswersTheTransformedBlock. -/
theorem witness_published_tables : State.reset.rom = Rom.published := rfl

theorem witness_ReversedSubkeysUndoTheTransform :
    (∀ v : Byte, applyTable Rom.published.ipInv (applyTable Rom.published.ip v) = v) ∧
    (∀ v : Byte, applyTable Rom.published.ip (applyTable Rom.published.ipInv v) = v) := by decide +kernel

theorem witness_OperationsChangeOnlyTheAnsweredQueues :
    (machine [asking 0x282] [.serve 0]).current = some (0, { purpose := .raw, word := 0x282 }) ∧
    exec (.ks 642) (machine [asking 0x282] [.serve 0]) =
      .next ((machine [asking 0x282] [.serve 0]).respond 0x0000A443) := ⟨by decide, rfl⟩

theorem witness_StepRunsTheDecodedRequest :
    (machine [asking 0x1043A462] [.serve 0]).current = some (0, { purpose := .raw, word := 0x1043A462 }) ∧
    decode 0x1043A462#32 = .ok (.xf 0x62 0xA4 0x43) := by decide

theorem witness_PlacedWordIsTheNextToRun : decodeTableWord 32 0x10000000 = some (.xf 0 0 0) := by decide

theorem witness_ReservedOpcodeIsAnsweredErrOpcode :
    (machine [asking 0x20000000] [.serve 0]).current = some (0, { purpose := .raw, word := 0x20000000 }) ∧
    2 ≤ ((0x20000000#32).extractLsb' 28 4).toNat := by decide

theorem witness_ReservedBitsAreAnsweredErrReserved :
    (machine [asking 0x400] [.serve 0]).current = some (0, { purpose := .raw, word := 0x400 }) ∧
    ((0x400#32).extractLsb' 28 4 = 0#4 ∧ (0x400#32).extractLsb' 10 18 ≠ 0#18) ∧
    (machine [asking 0x1F000000] [.serve 0]).current = some (0, { purpose := .raw, word := 0x1F000000 }) ∧
    ((0x1F000000#32).extractLsb' 28 4 = 1#4 ∧ (0x1F000000#32).extractLsb' 24 4 ≠ 0#4) := by decide

theorem witness_MalformedRequestChangesOnlyTheAnsweredQueues :
    (machine [asking 0xF0000282] [.serve 0]).current = some (0, { purpose := .raw, word := 0xF0000282 }) ∧
    decode 0xF0000282#32 = .error .opcode := by decide

theorem witness_ResponseDependsOnTheWordAlone :
    (machine [asking 0x282] [.serve 0]).current = some (0, { purpose := .raw, word := 0x282 }) ∧
    (machine [inSession (.enc 1), asking 0x282] [.serve 1, .reset]).current =
      some (1, { purpose := .raw, word := 0x282 }) := by decide

/-- Meets the hypothesis, and the last clause's: an error response. -/
theorem witness_EveryResponseHasTheLayout :
    (machine [asking 0x20000000] [.serve 0]).current = some (0, { purpose := .raw, word := 0x20000000 }) ∧
    (0x40000000#32).extractLsb' 30 2 ≠ 0b00#2 := by decide

theorem witness_ServiceOrderDoesNotMatter : [0, 1, 0].Perm [1, 0, 0] := by decide

theorem witness_RequestsAreAnsweredInIssueOrder :
    (machine [asking 0x282] []).hosts[0]? = some (asking 0x282) := by decide

/-- Meets the hypotheses of SessionLineIssuesItsKeyRequest at both ends of the key's range, and those of
OutOfRangeKeyIsRejected on both sides of the range. -/
theorem witness_session_lines :
    (machine [standing (.session 0)] [.issue 0]).hosts[0]? = some (standing (.session 0)) ∧
    (standing (.session 0)).fault = none ∧ (standing (.session 0)).prog[0]? = some (.session 0) ∧
    (standing (.session 1023)).prog[0]? = some (.session 1023) ∧ 1023 < 1024 ∧
    (standing (.session 1024)).prog[0]? = some (.session 1024) ∧ ((1024 : Int) < 0 ∨ (1024 : Int) ≤ 1024) ∧
    (standing (.session (-1))).prog[0]? = some (.session (-1)) ∧ ((-1 : Int) < 0 ∨ (1024 : Int) ≤ -1) := by decide

theorem witness_BlockLinesIssueTheirTransformRequest :
    (machine [inSession (.enc 0x62)] [.issue 0]).hosts[0]? = some (inSession (.enc 0x62)) ∧
    (inSession (.enc 0x62)).fault = none ∧ (inSession (.enc 0x62)).sk1 = some 0xA4 ∧
    (inSession (.enc 0x62)).sk2 = some 0x43 ∧ (inSession (.enc 0x62)).prog[0]? = some (.enc 0x62) ∧
    (inSession (.dec 0x62)).prog[0]? = some (.dec 0x62) := by decide

theorem witness_UnwrittenSubkeyIsAHostFault :
    (machine [standing (.enc 1)] [.issue 0]).hosts[0]? = some (standing (.enc 1)) ∧
    (standing (.enc 1)).fault = none ∧ (standing (.enc 1)).prog[0]? = some (.enc 1) ∧
    (standing (.enc 1)).sk1 = none ∧ (standing (.dec 1)).prog[0]? = some (.dec 1) ∧
    (standing (.dec 1)).sk2 = none := by decide

theorem witness_RawLinesIssueTheirWord :
    (machine [standing (.ks 1023)] [.issue 0]).hosts[0]? = some (standing (.ks 1023)) ∧
    (standing (.ks 1023)).fault = none ∧ (standing (.ks 1023)).prog[0]? = some (.ks 1023) ∧
    (standing (.xf 1 2 3)).prog[0]? = some (.xf 1 2 3) ∧
    (standing (.word 0xFFFFFFFF)).prog[0]? = some (.word 0xFFFFFFFF) := by decide

/-- Meets the hypotheses of SessionResponseWritesBothCells: the session the host is in, and an ended one of another key. -/
theorem witness_SessionResponseWritesBothCells :
    (machine [holding (inSession (.enc 1)) (.session 642) 0x0000A443] [.take 0]).hosts[0]? =
      some (holding (inSession (.enc 1)) (.session 642) 0x0000A443) ∧
    (holding (inSession (.enc 1)) (.session 642) 0x0000A443).fault = none ∧
    (holding (inSession (.enc 1)) (.session 642) 0x0000A443).key = some 642 ∧
    (holding (inSession (.enc 1)) (.session 0) 0x00000000).key ≠ some 0 ∧
    (0x00000000#32).extractLsb' 30 2 = 0b00#2 ∧
    (0x0000A443#32).extractLsb' 30 2 = 0b00#2 := by decide

theorem witness_BlockResponseAppendsItsByte :
    (holding (inSession (.enc 1)) .block 0x91).responses = [{ purpose := .block, word := 0x91 }] ∧
    (holding (inSession (.enc 1)) .block 0x91).fault = none ∧ (0x91#32).extractLsb' 30 2 = 0b00#2 := by decide

theorem witness_ErrorResponseFaultsOnlySessionLines :
    (holding (inSession (.enc 1)) .block 0x40000000).fault = none ∧
    (0x40000000#32).extractLsb' 30 2 = 0b01#2 ∧ (0x80000000#32).extractLsb' 30 2 = 0b10#2 ∧
    Purpose.block ≠ .raw ∧ Purpose.session 642 ≠ .raw ∧
    (holding (inSession (.enc 1)) .raw 0x0000FFFF).responses = [{ purpose := .raw, word := 0x0000FFFF }] ∧
    (0x0000FFFF#32).extractLsb' 30 2 ≠ 0b11#2 := by decide

/-- A faulted host, its own inputs next, with something to issue and something to take: meets FaultedHostTakesNoFurtherStep. -/
theorem witness_FaultedHostTakesNoFurtherStep :
    (machine [{ holding (standing (.ks 1)) .raw 1 with fault := some .coreError }] [.issue 0]).inputs.head? ≠
      some (.serve 0) ∧
    after (machine [{ holding (standing (.ks 1)) .raw 1 with fault := some .coreError }] [.issue 0]) =
      some (machine [{ holding (standing (.ks 1)) .raw 1 with fault := some .coreError }] []) ∧
    after (machine [{ holding (standing (.ks 1)) .raw 1 with fault := some .keyOutOfRange }] [.take 0]) =
      some (machine [{ holding (standing (.ks 1)) .raw 1 with fault := some .keyOutOfRange }] []) := by decide

theorem witness_HostsShareNothingThroughTheCore :
    (machine [asking 0x282, standing (.ks 1)] [.serve 0]).inputs.head? = some (.serve 0) ∧
    (after (machine [asking 0x282, standing (.ks 1)] [.serve 0])).isSome = true ∧
    (machine [standing (.ks 1), asking 0x282] [.issue 0]).inputs.head? = some (.issue 0) ∧
    (after (machine [standing (.ks 1), asking 0x282] [.issue 0])).isSome = true ∧
    (machine [holding (standing (.ks 1)) .raw 1, asking 0] [.take 0]).inputs.head? = some (.take 0) ∧
    (after (machine [holding (standing (.ks 1)) .raw 1, asking 0] [.take 0])).isSome = true := by decide

/-- Meets the hypotheses of ResetEndsEverySession and of HostJoinsAtItsStart. -/
theorem witness_reset_and_connect :
    (machine [asking 0x282] [.reset]).inputs = [.reset] ∧
    (machine [] [.connect [.ks 1]]).inputs = [.connect [.ks 1]] := by decide

/-- Meets the hypotheses of each clause of NothingToDoChangesNothing. -/
theorem witness_NothingToDoChangesNothing :
    (machine [HostAgent.start []] [.issue 0]).hosts[0]? = some (HostAgent.start []) ∧
    (HostAgent.start []).prog[0]? = none ∧ (HostAgent.start []).responses = [] ∧
    (HostAgent.start []).requests = [] := by decide

/-- A consistent state with a session under way and a response in flight, from which a step goes on: meets EveryStepKeepsConsistency,
TablesAreNeverWritten and SessionLinesNeverMeetACoreError. -/
theorem witness_consistent_state :
    (machine [holding (inSession (.enc 1)) (.session 642) 0x0000A443] [.take 0]).consistent = true ∧
    after (machine [holding (inSession (.enc 1)) (.session 642) 0x0000A443] [.take 0]) =
      some (machine [inSession (.enc 1)] []) ∧
    (inSession (.enc 1)).fault ≠ some .coreError := by decide

theorem witness_FaultOnlyWithoutTheHost :
    (machine [] [.serve 0]).hosts.length ≤ 0 ∧ (machine [] [.serve 0]).inputs.head? = some (.serve 0) := by decide

theorem witness_RefusedOnlyOnTheUnusedStatus :
    (machine [holding (standing (.ks 1)) .raw 0xC0000000] [.take 0]).inputs.head? = some (.take 0) ∧
    (holding (standing (.ks 1)) .raw 0xC0000000).fault = none ∧
    (0xC0000000#32).extractLsb' 30 2 = 0b11#2 := by decide

theorem witness_SessionRunsToWrittenCells :
    (machine [standing (.session 1023)] []).hosts[0]? = some (standing (.session 1023)) ∧
    (standing (.session 1023)).fault = none ∧ (standing (.session 1023)).requests = [] ∧
    (standing (.session 1023)).responses = [] ∧ (standing (.session 1023)).prog[0]? = some (.session 1023) := by decide

theorem witness_MachineCarriesOutTheStream :
    (machine [inSession (.enc 0x62)] []).hosts[0]? = some (inSession (.enc 0x62)) ∧
    (inSession (.enc 0x62)).fault = none ∧ (inSession (.enc 0x62)).requests = [] ∧
    (inSession (.enc 0x62)).responses = [] ∧ (inSession (.enc 0x62)).sk1 = some 0xA4 ∧
    (inSession (.enc 0x62)).sk2 = some 0x43 ∧
    (inSession (.enc 0x62)).prog.drop 0 = [0x62#8].map Direction.encrypt.line := by decide

theorem witness_AssemblerRefusesWideOperands :
    Token.value (.code 98) = some 98 ∧ Token.value (.word ['1', '0', '2', '4']) = some 1024 ∧
    Token.value (.word ['0', 'x', 'f', 'f']) = some 255 ∧ Token.value (.word ['2', '5', '6']) = some 256 := by decide

end Sys2Proof.Tests
end

section
/-! Permutation and rotation by the bits of their results (R12, R14). -/

namespace Sys2Proof

/-- The bit of a permuted value, counted from the least significant as R12 numbers it. -/
theorem applyTable_getLsbD {n m : Nat} (t : PermTable n m) (v : BitVec n) (j : Fin m) :
    (applyTable t v).getLsbD (m - 1 - j) = v.getLsbD (t.get j) := by
  calc (applyTable t v).getLsbD (m - 1 - j)
      = (applyTable t v).getMsbD j := by
        rw [BitVec.getMsbD_eq_getLsbD, decide_eq_true j.isLt, Bool.true_and]
    _ = v.getLsbD (t.get j) := applyTable_getMsbD t v j

/-- The shifts of R14 are the library's cyclic rotation. -/
theorem rol5_eq_rotateLeft (x : KeyHalf) {s : Nat} (hs : s < 5) : rol5 x s = x.rotateLeft s := by
  rw [rol5, BitVec.rotateLeft_def, Nat.mod_eq_of_lt hs]

/-- R14, the form on numbers: only the left shift can leave the five bits. -/
theorem toNat_rol5 (x : KeyHalf) (s : Nat) :
    (rol5 x s).toNat = (x.toNat <<< s ||| x.toNat >>> (5 - s)) % 32 := by
  have fits : x.toNat >>> (5 - s) % 2 ^ 5 = x.toNat >>> (5 - s) :=
    Nat.mod_eq_of_lt (Nat.lt_of_le_of_lt (Nat.shiftRight_le _ _) x.isLt)
  calc (rol5 x s).toNat
      = x.toNat <<< s % 2 ^ 5 ||| x.toNat >>> (5 - s) := by
        rw [rol5, BitVec.toNat_or, BitVec.toNat_shiftLeft, BitVec.toNat_ushiftRight]
    _ = (x.toNat <<< s ||| x.toNat >>> (5 - s)) % 2 ^ 5 := by rw [Nat.or_mod_two_pow, fits]

/-- R14, the form on bits: the `s` lowest bits come from the top, the others from `s` places below. -/
theorem getLsbD_rol5 (x : KeyHalf) {s i : Nat} (hs : s < 5) (hi : i < 5) :
    (rol5 x s).getLsbD i = x.getLsbD ((i + 5 - s) % 5) := by
  rw [rol5_eq_rotateLeft x hs, BitVec.getLsbD_rotateLeft, Nat.mod_eq_of_lt hs]
  by_cases wraps : i < s
  · have source : (i + 5 - s) % 5 = 5 - s + i := by omega
    rw [source, decide_eq_true wraps, cond_true]
  · have source : (i + 5 - s) % 5 = i - s := by omega
    rw [source, decide_eq_false wraps, cond_false, decide_eq_true hi, Bool.true_and]

/-- Settles O6, from the bit of a permuted value. -/
theorem permutationTakesListedSourceBits : Obligations.PermutationTakesListedSourceBits :=
  fun _ _ => applyTable_getLsbD

/-- Settles O7: both forms hold of every rotation by less than the width. -/
theorem rotationWrapsInsideTheHalf : Obligations.RotationWrapsInsideTheHalf := by
  intro x s hs
  have below : s < 5 := by omega
  exact ⟨toNat_rol5 x s, fun _ hi => getLsbD_rol5 x below hi⟩

end Sys2Proof
end

section
/-! What a step leaves alone and what a response depends on (R26, R28). -/

namespace Sys2Proof.Machine

/-- Every effect of a step is on the hosts and on the inputs still to come. -/
theorem step_rom {s t : State} (e : step s = .next t) : t.rom = s.rom := by
  obtain ⟨-, rest⟩ | ⟨h, inputs, a, -, -, issue⟩ | ⟨h, inputs, a, r, more, -, -, -, serve⟩ |
    ⟨h, inputs, a, -, -, -, idle⟩ | ⟨h, inputs, a, b, -, -, -, take⟩ | ⟨inputs, -, reset⟩ |
    ⟨prog, inputs, -, connect⟩ := step_cases e
  · rw [rest]
  · rw [issue]
  · rw [serve]
  · rw [idle]
  · rw [take]
  · rw [reset]
  · rw [connect]

/-- R28 for tables of any contents: the response to the request at hand is that of its word. -/
theorem step_eq_respond_of_word {s : State} {h : Nat} {r : Request} {rom : Rom} {w : Word}
    (hrom : s.rom = rom) (hc : s.current = some (h, r)) (hw : r.word = w) :
    step s = .next (s.respond (answerWord rom w)) := by
  subst hrom hw
  exact step_serve hc

end Sys2Proof.Machine

namespace Sys2Proof
open Machine

/-- Settles O27: both states give the answer that the constant tables give to their common word. -/
theorem responseDependsOnTheWordAlone : Obligations.ResponseDependsOnTheWordAlone := by
  intro s t h k r q hs ht hr hq sameWord
  exact ⟨answerWord Rom.published q.word,
    step_eq_respond_of_word hs hr sameWord, step_eq_respond_of_word ht hq rfl⟩

/-- Settles O47, from the case analysis of a step: none of its cases names the tables. -/
theorem tablesAreNeverWritten : Obligations.TablesAreNeverWritten :=
  fun _ _ => step_rom

end Sys2Proof
end

section
/-! The order of a host's responses (R51) and of the driver's output (R42). -/

namespace Sys2Proof.Machine

/-- R51 for any queue: each service moves the oldest request to the end of the responses, so the queue comes out in
its own order. The state and the host vary, since both change with every answer. -/
theorem run_serve_answers_queue (h : Nat) (rest : List Input) (queue : List Request) :
    ∀ (s : State) (a : HostAgent), s.hosts[h]? = some a → a.requests = queue →
      core.run queue.length { s with inputs := List.replicate queue.length (.serve h) ++ rest } =
        .next { s with
          inputs := rest
          hosts := s.hosts.set h
            { a with requests := [], responses := a.responses ++ queue.map (Request.answered s.rom) } } := by
  induction queue with
  | nil =>
    intro s a ha hq
    have unchanged : { a with requests := [], responses := a.responses ++ [] } = a := by
      rw [List.append_nil, ← hq]
    rw [List.length_nil, run_zero, List.map_nil, unchanged, hosts_set_same ha]
    rfl
  | cons r more ih =>
    intro s a ha hq
    have inRange : h < s.hosts.length := (List.getElem?_eq_some_iff.mp ha).1
    have first : step { s with inputs := .serve h :: (List.replicate more.length (.serve h) ++ rest) } = _ :=
      step_serve_eq rfl ha hq
    have others := ih
      { s with
        hosts := s.hosts.set h { a with requests := more, responses := a.responses ++ [r.answered s.rom] } }
      _ (List.getElem?_set_self inRange) rfl
    calc core.run (more.length + 1)
          { s with inputs := .serve h :: (List.replicate more.length (.serve h) ++ rest) }
      _ = _ := run_of_next first more.length
      _ = _ := others
      _ = _ := by rw [List.set_set, List.append_assoc, List.singleton_append, List.map_cons]

/-- R171: to encrypt, round 1 takes the first subkey. -/
theorem cryptByte_encrypt (rom : Rom) (k1 k2 : Byte) :
    cryptByte rom .encrypt k1 k2 = fun blk => transform rom blk k1 k2 := rfl

/-- R172: to decrypt, round 1 takes the second subkey. -/
theorem cryptByte_decrypt (rom : Rom) (k1 k2 : Byte) :
    cryptByte rom .decrypt k1 k2 = fun blk => transform rom blk k2 k1 := rfl

section
variable (rom : Rom) (d : Direction) (k1 k2 : Byte) (input : List Byte)

/-- R42: one output byte for each input byte. -/
@[simp] theorem length_cryptStream : (cryptStream rom d k1 k2 input).length = input.length :=
  List.length_map _

/-- R42: the output byte at a position is that of the input byte there. -/
@[simp] theorem getElem?_cryptStream (i : Nat) :
    (cryptStream rom d k1 k2 input)[i]? = input[i]?.map (cryptByte rom d k1 k2) :=
  List.getElem?_map

/-- R175, no chaining: a changed input byte changes its own output byte alone. -/
theorem cryptStream_set (i : Nat) (b : Byte) :
    cryptStream rom d k1 k2 (input.set i b) = (cryptStream rom d k1 k2 input).set i (cryptByte rom d k1 k2 b) :=
  List.map_set

end

end Sys2Proof.Machine

namespace Sys2Proof
open Machine

/-- Settles O30, by induction on the host's queue. -/
theorem requestsAreAnsweredInIssueOrder : Obligations.RequestsAreAnsweredInIssueOrder :=
  fun s h a rest ha => run_serve_answers_queue h rest a.requests s a ha rfl

/-- Settles O51, byte by byte; each direction's subkey order is that of its single bytes. -/
theorem streamIsOneTransformPerByte : Obligations.StreamIsOneTransformPerByte := by
  intro rom k1 k2 input
  refine ⟨fun d => length_cryptStream rom d k1 k2 input, fun i => ?_, fun i => ?_,
    fun d => cryptStream_set rom d k1 k2 input⟩
  · rw [getElem?_cryptStream, cryptByte_encrypt]
  · rw [getElem?_cryptStream, cryptByte_decrypt]

end Sys2Proof
end

section
/-! The decoder, branch by branch, and what each range of the word's number says of its fields (R70 to R77). -/

namespace Sys2Proof

/-- A slice as a number: the bits below it divided away, those above it dropped. -/
theorem extract_eq_ofNat_div {m : Nat} (v : BitVec m) (lo len : Nat) :
    v.extractLsb' lo len = BitVec.ofNat len (v.toNat / 2 ^ lo) := by
  rw [← Nat.shiftRight_eq_div_pow]
  rfl

section
variable {w : Word}

/-- R71. -/
theorem decode_of_ks (op : reqOp w = 0#4) (zero : reqKsReserved w = 0#18) : decode w = .ok (.ks (reqKey w)) := by
  rw [decode, if_pos op, if_pos zero]

/-- R76, the KS row. -/
theorem decode_of_ks_reserved (op : reqOp w = 0#4) (bits : reqKsReserved w ≠ 0#18) :
    decode w = .error .reserved := by
  rw [decode, if_pos op, if_neg bits]

/-- R72. -/
theorem decode_of_xf (op : reqOp w = 1#4) (zero : reqXfReserved w = 0#4) :
    decode w = .ok (.xf (reqBlk w) (reqSka w) (reqSkb w)) := by
  have notKs : reqOp w ≠ 0#4 := by rw [op]; decide
  rw [decode, if_neg notKs, if_pos op, if_pos zero]

/-- R76, the XF row. -/
theorem decode_of_xf_reserved (op : reqOp w = 1#4) (bits : reqXfReserved w ≠ 0#4) :
    decode w = .error .reserved := by
  have notKs : reqOp w ≠ 0#4 := by rw [op]; decide
  rw [decode, if_neg notKs, if_pos op, if_neg bits]

/-- R75: neither opcode is 2 or more, and the other bits are not looked at (R203). -/
theorem decode_of_reserved_opcode (op : 2 ≤ (reqOp w).toNat) : decode w = .error .opcode := by
  have notKs : reqOp w ≠ 0#4 := fun e => absurd op (by rw [e]; decide)
  have notXf : reqOp w ≠ 1#4 := fun e => absurd op (by rw [e]; decide)
  rw [decode, if_neg notKs, if_neg notXf]

theorem reqOp_eq_zero_iff : reqOp w = 0#4 ↔ w.toNat < 2 ^ 28 := by
  rw [BitVec.toNat_eq, reqOp_toNat, BitVec.toNat_ofNat]
  omega

theorem reqOp_eq_one_iff : reqOp w = 1#4 ↔ 2 ^ 28 ≤ w.toNat ∧ w.toNat < 2 ^ 29 := by
  rw [BitVec.toNat_eq, reqOp_toNat, BitVec.toNat_ofNat]
  omega

theorem two_le_reqOp_iff : 2 ≤ (reqOp w).toNat ↔ 2 ^ 29 ≤ w.toNat := by
  rw [reqOp_toNat]
  omega

/-- Below 2^28, where the opcode is KS, the reserved bits are all that lies above the key. -/
theorem reqKsReserved_eq_zero_iff (ks : w.toNat < 2 ^ 28) : reqKsReserved w = 0#18 ↔ w.toNat < 2 ^ 10 := by
  rw [BitVec.toNat_eq, reqKsReserved_toNat, BitVec.toNat_ofNat]
  omega

/-- From 2^28 to 2^29, where the opcode is XF, the reserved bits are all that lies between it and the operands. -/
theorem reqXfReserved_eq_zero_iff (from28 : 2 ^ 28 ≤ w.toNat) (below29 : w.toNat < 2 ^ 29) :
    reqXfReserved w = 0#4 ↔ w.toNat < 2 ^ 28 + 2 ^ 24 := by
  rw [BitVec.toNat_eq, reqXfReserved_toNat, BitVec.toNat_ofNat]
  omega

end

theorem reqKey_eq_ofNat (w : Word) : reqKey w = BitVec.ofNat 10 w.toNat := rfl

theorem reqBlk_eq_ofNat (w : Word) : reqBlk w = BitVec.ofNat 8 w.toNat := rfl

theorem reqSka_eq_ofNat (w : Word) : reqSka w = BitVec.ofNat 8 (w.toNat / 2 ^ 8) := extract_eq_ofNat_div w 8 8

theorem reqSkb_eq_ofNat (w : Word) : reqSkb w = BitVec.ofNat 8 (w.toNat / 2 ^ 16) := extract_eq_ofNat_div w 16 8

/-- Settles O3: each range fixes the opcode and whether the reserved bits are zero, so it selects one branch of the
decoder. -/
theorem decoderFollowsRangesOfTheWord : Obligations.DecoderFollowsRangesOfTheWord := by
  intro w
  refine ⟨fun below10 => ?ks, fun from10 below28 => ?ksReserved, fun from28 belowXf => ?xf,
    fun fromXf below29 => ?xfReserved, fun from29 => ?opcode⟩
  case ks =>
    have below28 : w.toNat < 2 ^ 28 := by omega
    rw [decode_of_ks (reqOp_eq_zero_iff.mpr below28) ((reqKsReserved_eq_zero_iff below28).mpr below10),
      reqKey_eq_ofNat]
  case ksReserved =>
    have bits : ¬ reqKsReserved w = 0#18 := by rw [reqKsReserved_eq_zero_iff below28]; omega
    exact decode_of_ks_reserved (reqOp_eq_zero_iff.mpr below28) bits
  case xf =>
    have below29 : w.toNat < 2 ^ 29 := by omega
    rw [decode_of_xf (reqOp_eq_one_iff.mpr ⟨from28, below29⟩)
      ((reqXfReserved_eq_zero_iff from28 below29).mpr belowXf), reqBlk_eq_ofNat, reqSka_eq_ofNat, reqSkb_eq_ofNat]
  case xfReserved =>
    have from28 : 2 ^ 28 ≤ w.toNat := by omega
    have bits : ¬ reqXfReserved w = 0#4 := by rw [reqXfReserved_eq_zero_iff from28 below29]; omega
    exact decode_of_xf_reserved (reqOp_eq_one_iff.mpr ⟨from28, below29⟩) bits
  case opcode => exact decode_of_reserved_opcode (two_le_reqOp_iff.mpr from29)

end Sys2Proof
end

section
/-! The response to a request that the decoder rejects, and the layout of every response (R75, R76, R81, R84). -/

namespace Sys2Proof.Machine

theorem answerWord_of_ok {w : Word} {i : Instr} (e : decode w = .ok i) (rom : Rom) :
    answerWord rom w = instrAnswer rom i := by
  rw [answerWord, e]

theorem answerWord_of_error {w : Word} {e : RequestError} (he : decode w = .error e) (rom : Rom) :
    answerWord rom w = errorResponse e := by
  rw [answerWord, he]

/-- R204: a rejected request is answered with its error and nothing else happens. -/
theorem step_of_decode_error {s : State} {h : Nat} {r : Request} {e : RequestError}
    (hc : s.current = some (h, r)) (he : decode r.word = .error e) :
    step s = .next (s.respond (errorResponse e)) := by
  rw [step_serve hc, answerWord_of_error he]

/-- R201. -/
theorem errorResponse_opcode : errorResponse .opcode = 0x40000000#32 := by decide

/-- R202. -/
theorem errorResponse_reserved : errorResponse .reserved = 0x80000000#32 := by decide

/-- The layout of R81 and R84, clause by clause. -/
theorem isResponse_iff {w : Word} :
    isResponse w = true ↔
      rspStatus w ≠ statusUnused ∧ rspZero w = 0#14 ∧ (rspStatus w ≠ statusOk → rspData w = 0#16) := by
  simp only [isResponse, Bool.and_eq_true, Bool.or_eq_true, bne_iff_ne, beq_iff_eq, and_assoc,
    or_iff_not_imp_left, ne_eq]

theorem isResponse_instrAnswer (rom : Rom) (i : Instr) : isResponse (instrAnswer rom i) = true := by
  cases i with
  | ks key => exact isResponse_ksResponse _ _
  | xf blk ska skb => exact isResponse_xfResponse _

/-- R81: accepted or rejected, every word is answered in the layout. -/
theorem isResponse_answerWord (rom : Rom) (w : Word) : isResponse (answerWord rom w) = true := by
  cases e : decode w with
  | ok i =>
    rw [answerWord_of_ok e]
    exact isResponse_instrAnswer rom i
  | error err =>
    rw [answerWord_of_error e]
    exact isResponse_errorResponse err

end Sys2Proof.Machine

namespace Sys2Proof
open Machine

/-- Settles O24: the decoder rejects the word by its opcode alone. -/
theorem reservedOpcodeIsAnsweredErrOpcode : Obligations.ReservedOpcodeIsAnsweredErrOpcode := by
  intro s h r hc op
  rw [step_of_decode_error hc (decode_of_reserved_opcode op), errorResponse_opcode]

/-- Settles O25: in either row the decoder rejects the word by its reserved bits. -/
theorem reservedBitsAreAnsweredErrReserved : Obligations.ReservedBitsAreAnsweredErrReserved := by
  intro s h r hc cause
  have rejected : decode r.word = .error .reserved := by
    obtain ⟨op, bits⟩ | ⟨op, bits⟩ := cause
    · exact decode_of_ks_reserved op bits
    · exact decode_of_xf_reserved op bits
  rw [step_of_decode_error hc rejected, errorResponse_reserved]

/-- Settles O28: the word answered has the layout, whichever way its request decodes. -/
theorem everyResponseHasTheLayout : Obligations.EveryResponseHasTheLayout :=
  fun s _ r hc => ⟨answerWord s.rom r.word, step_serve hc, isResponse_iff.mp (isResponse_answerWord s.rom r.word)⟩

end Sys2Proof
end

section
/-! Permutation, rotation, split and join on numbers (R10, R12, R14, R102), and the KS response made of them (R110, R82). -/

namespace Sys2Proof

/-- `apply` of R12 on numbers: reads the listed bits of `v` one after another, the most significant result bit first. -/
def applyIndices (t : List Nat) (v : Nat) : Nat :=
  t.foldl (fun n i => 2 * n + v / 2 ^ i % 2) 0

/-- The entries of a table as the numbers R12 lists. -/
def tableIndices {n m : Nat} (t : PermTable n m) : List Nat := t.toList.map Fin.val

@[simp] theorem length_tableIndices {n m : Nat} (t : PermTable n m) : (tableIndices t).length = m := by
  rw [tableIndices, List.length_map, Vector.length_toList]

@[simp] theorem getElem_tableIndices {n m : Nat} (t : PermTable n m) {j : Nat} (hj : j < (tableIndices t).length) :
    (tableIndices t)[j] = t.get ⟨j, by simpa using hj⟩ := by
  simp [tableIndices, Vector.get]

/-- Reading bits into a number that already holds what lies above them: if the listed bits of `v` are the low bits of
`x` from the top down, the high part of `x` grows to `x`. -/
theorem foldl_bits_eq {v x : Nat} (t : List Nat)
    (bits : ∀ (j : Nat) (hj : j < t.length), x / 2 ^ (t.length - 1 - j) % 2 = v / 2 ^ t[j] % 2) :
    t.foldl (fun n i => 2 * n + v / 2 ^ i % 2) (x / 2 ^ t.length) = x := by
  induction t with
  | nil => simp
  | cons i rest ih =>
    have top : x / 2 ^ rest.length % 2 = v / 2 ^ i % 2 := bits 0 (Nat.succ_pos _)
    have grown : 2 * (x / 2 ^ (rest.length + 1)) + v / 2 ^ i % 2 = x / 2 ^ rest.length := by
      rw [Nat.pow_succ, ← Nat.div_div_eq_div_mul, ← top, Nat.div_add_mod]
    rw [List.foldl_cons, List.length_cons, grown]
    refine ih fun j hj => ?_
    have place : rest.length - 1 - j = rest.length + 1 - 1 - (j + 1) := by omega
    rw [place]
    exact bits (j + 1) (Nat.succ_lt_succ hj)

/-- R12, the form on numbers. -/
theorem toNat_applyTable {n m : Nat} (t : PermTable n m) (v : BitVec n) :
    (applyTable t v).toNat = applyIndices (tableIndices t) v.toNat := by
  have empty : (applyTable t v).toNat / 2 ^ (tableIndices t).length = 0 := by
    rw [length_tableIndices]
    exact Nat.div_eq_of_lt (applyTable t v).isLt
  rw [applyIndices, ← empty]
  refine (foldl_bits_eq _ fun j hj => ?_).symm
  rw [length_tableIndices, getElem_tableIndices, ← Nat.toNat_testBit, ← Nat.toNat_testBit]
  exact congrArg Bool.toNat (applyTable_getLsbD t v ⟨j, _⟩)

/-- `rol5` of R14 on numbers, by powers of two. -/
def rotateNumber (x s : Nat) : Nat := (x * 2 ^ s ||| x / 2 ^ (5 - s)) % 32

theorem toNat_rol5_eq_rotateNumber (x : KeyHalf) (s : Nat) : (rol5 x s).toNat = rotateNumber x.toNat s := by
  rw [toNat_rol5, Nat.shiftLeft_eq, Nat.shiftRight_eq_div_pow, rotateNumber]

theorem toNat_leftHalf (v : BitVec 10) : (leftHalf v).toNat = v.toNat / 32 := by
  rw [leftHalf, BitVec.extractLsb'_toNat, Nat.shiftRight_eq_div_pow]
  omega

theorem toNat_rightHalf (v : BitVec 10) : (rightHalf v).toNat = v.toNat % 32 := by
  rw [rightHalf, BitVec.extractLsb'_toNat, Nat.shiftRight_zero]

/-- R104, R108: the left half is the upper one. -/
theorem toNat_joinKeyHalves (l r : KeyHalf) : (l ++ r : BitVec 10).toNat = 32 * l.toNat + r.toNat := by
  rw [Nat.mul_comm]
  exact toNat_append_eq l r

theorem tableIndices_publishedP10 : tableIndices Rom.published.p10 = [7, 5, 8, 3, 6, 0, 9, 1, 2, 4] := rfl

theorem tableIndices_publishedP8 : tableIndices Rom.published.p8 = [4, 7, 3, 6, 2, 5, 0, 1] := rfl

namespace Machine

/-- R82: STATUS = OK is 0, so the word is the number of its data. -/
theorem ksResponse_eq_ofNat (k1 k2 : Byte) :
    ksResponse k1 k2 = BitVec.ofNat 32 (256 * k1.toNat + k2.toNat) := by
  have data : (k1 ++ k2 : BitVec 16).toNat = k1.toNat * 256 + k2.toNat := toNat_append_eq k1 k2
  have word : (ksResponse k1 k2).toNat = 0 * 2 ^ 16 + (k1 ++ k2 : BitVec 16).toNat :=
    toNat_append_eq (statusOk ++ 0#14) (k1 ++ k2)
  apply BitVec.eq_of_toNat_eq
  rw [word, data, BitVec.toNat_ofNat]
  omega

section
variable (rom : Rom) (key : Key)

/-- The once-rotated left half of R103 as a number. -/
theorem toNat_ksPath_kl1 :
    (ksPath rom key).kl1.toNat = rotateNumber (applyIndices (tableIndices rom.p10) key.toNat / 32) 1 := by
  rw [← toNat_applyTable, ← toNat_leftHalf]
  exact toNat_rol5_eq_rotateNumber _ _

/-- The once-rotated right half of R103 as a number. -/
theorem toNat_ksPath_kr1 :
    (ksPath rom key).kr1.toNat = rotateNumber (applyIndices (tableIndices rom.p10) key.toNat % 32) 1 := by
  rw [← toNat_applyTable, ← toNat_rightHalf]
  exact toNat_rol5_eq_rotateNumber _ _

/-- R104, R106. -/
theorem toNat_ksPath_k1 :
    (ksPath rom key).k1.toNat = applyIndices (tableIndices rom.p8)
      (32 * (ksPath rom key).kl1.toNat + (ksPath rom key).kr1.toNat) := by
  rw [← toNat_joinKeyHalves]
  exact toNat_applyTable _ _

/-- R107, R108: the second rotation starts from the halves already rotated once. -/
theorem toNat_ksPath_k2 :
    (ksPath rom key).k2.toNat = applyIndices (tableIndices rom.p8)
      (32 * rotateNumber (ksPath rom key).kl1.toNat 2 + rotateNumber (ksPath rom key).kr1.toNat 2) := by
  rw [← toNat_rol5_eq_rotateNumber, ← toNat_rol5_eq_rotateNumber, ← toNat_joinKeyHalves]
  exact toNat_applyTable _ _

/-- R82: the response joins the two subkeys of the path. -/
theorem ksAnswer_eq_ofNat :
    ksAnswer rom key = BitVec.ofNat 32 (256 * (ksPath rom key).k1.toNat + (ksPath rom key).k2.toNat) :=
  ksResponse_eq_ofNat _ _

end

end Machine

open Machine

/-- Settles O12: KS answers the number its path computes, and the constant tables are the two index lists of R100 and
R105. -/
theorem ksAnswersTheDerivedSubkeys : Obligations.KsAnswersTheDerivedSubkeys := by
  intro key s tables
  have answer : exec (.ks key) s = .next (s.respond (ksAnswer s.rom key)) := exec_eq (.ks key) s
  rw [answer, tables, ksAnswer_eq_ofNat, toNat_ksPath_k1, toNat_ksPath_k2, toNat_ksPath_kl1, toNat_ksPath_kr1,
    tableIndices_publishedP10, tableIndices_publishedP8]
  rfl

end Sys2Proof
end

section
/-! The S-boxes and the round function F on numbers (R131, R137, R140, R142). -/

namespace Sys2Proof

theorem toNat_upperHalf (v : Byte) : (upperHalf v).toNat = v.toNat / 16 := by
  rw [upperHalf, BitVec.extractLsb'_toNat, Nat.shiftRight_eq_div_pow]
  omega

theorem toNat_lowerHalf (v : Byte) : (lowerHalf v).toNat = v.toNat % 16 := by
  rw [lowerHalf, BitVec.extractLsb'_toNat, Nat.shiftRight_zero]

theorem toNat_sboxRow (x : Nibble) : (sboxRow x).toNat = 2 * (x.toNat / 8) + x.toNat % 2 := by
  revert x
  decide

theorem toNat_sboxCol (x : Nibble) : (sboxCol x).toNat = x.toNat / 2 % 4 := by
  revert x
  decide

/-- The entries of an S-box as the numbers R15 lists, row by row. -/
def sboxNumbers (s : SBox) : List (List Nat) := s.toList.map fun row => row.toList.map BitVec.toNat

/-- The S-box lookup of R137 on numbers: the outer bits of `x` give the row and the inner bits the column. -/
def lookupNumber (m : List (List Nat)) (x : Nat) : Nat :=
  (m.getD (2 * (x / 8) + x % 2) []).getD (x / 2 % 4) 0

/-- R15 on numbers; an index of two bits never misses the four rows and columns, so no default is read. -/
theorem toNat_sboxEntry (s : SBox) (r c : Pair) :
    (sboxEntry s r c).toNat = ((sboxNumbers s).getD r.toNat []).getD c.toNat 0 := by
  have row : r.toNat < 4 := r.isLt
  have col : c.toNat < 4 := c.isLt
  have entry : sboxEntry s r c = s[r.toNat][c.toNat] := rfl
  simp [entry, sboxNumbers, row, col]

theorem toNat_sboxEntry_row_col (s : SBox) (x : Nibble) :
    (sboxEntry s (sboxRow x) (sboxCol x)).toNat = lookupNumber (sboxNumbers s) x.toNat := by
  rw [toNat_sboxEntry, toNat_sboxRow, toNat_sboxCol, lookupNumber]

/-- R140: S0's output is the high one. -/
theorem toNat_joinPairs (a b : Pair) : (a ++ b : Nibble).toNat = 4 * a.toNat + b.toNat := by
  rw [Nat.mul_comm]
  exact toNat_append_eq a b

theorem tableIndices_publishedEp : tableIndices Rom.published.ep = [0, 3, 2, 1, 2, 1, 0, 3] := rfl

theorem tableIndices_publishedP4 : tableIndices Rom.published.p4 = [2, 0, 1, 3] := rfl

theorem sboxNumbers_publishedS0 :
    sboxNumbers Rom.published.s0 = [[1, 0, 3, 2], [3, 2, 1, 0], [0, 2, 1, 3], [3, 1, 3, 2]] := rfl

theorem sboxNumbers_publishedS1 :
    sboxNumbers Rom.published.s1 = [[0, 1, 2, 3], [2, 0, 1, 3], [3, 0, 1, 0], [2, 1, 0, 3]] := rfl

namespace Machine

section
variable (rom : Rom) (h : Nibble) (sk : Byte)

/-- R134, R135. -/
theorem toNat_fPath_x :
    (fPath rom h sk).x.toNat = applyIndices (tableIndices rom.ep) h.toNat ^^^ sk.toNat := by
  rw [← toNat_applyTable]
  exact BitVec.toNat_xor _ _

/-- R136, R137: S0 reads the upper half. -/
theorem toNat_fPath_s0 :
    (fPath rom h sk).s0.toNat = lookupNumber (sboxNumbers rom.s0) ((fPath rom h sk).x.toNat / 16) := by
  rw [← toNat_upperHalf]
  exact toNat_sboxEntry_row_col _ _

/-- R136, R137: S1 reads the lower half. -/
theorem toNat_fPath_s1 :
    (fPath rom h sk).s1.toNat = lookupNumber (sboxNumbers rom.s1) ((fPath rom h sk).x.toNat % 16) := by
  rw [← toNat_lowerHalf]
  exact toNat_sboxEntry_row_col _ _

/-- R140, R141. -/
theorem toNat_roundF :
    (roundF rom h sk).toNat = applyIndices (tableIndices rom.p4)
      (4 * (fPath rom h sk).s0.toNat + (fPath rom h sk).s1.toNat) := by
  rw [← toNat_joinPairs]
  exact toNat_applyTable _ _

end

/-- R142 on numbers, for any tables. -/
def roundNumber (rom : Rom) (h sk : Nat) : Nat :=
  let x := applyIndices (tableIndices rom.ep) h ^^^ sk
  applyIndices (tableIndices rom.p4)
    (4 * lookupNumber (sboxNumbers rom.s0) (x / 16) + lookupNumber (sboxNumbers rom.s1) (x % 16))

theorem toNat_roundF_eq_roundNumber (rom : Rom) (h : Nibble) (sk : Byte) :
    (roundF rom h sk).toNat = roundNumber rom h.toNat sk.toNat := by
  rw [toNat_roundF, toNat_fPath_s0, toNat_fPath_s1, toNat_fPath_x, roundNumber]

end Machine

open Machine

/-- Settles O16: F computes the number its path computes, and the constant tables are the lists of R133, R138, R139 and
R141. -/
theorem roundFunctionFollowsItsSteps : Obligations.RoundFunctionFollowsItsSteps := by
  intro h sk
  rw [toNat_roundF_eq_roundNumber, roundNumber, tableIndices_publishedEp, tableIndices_publishedP4,
    sboxNumbers_publishedS0, sboxNumbers_publishedS1]
  rfl

end Sys2Proof
end

section
/-! The transform on numbers (R131, R144, R145, R170), and the XF response made of it (R83). -/

namespace Sys2Proof

/-- R170: the upper half of a block is the high one. -/
theorem toNat_joinBlockHalves (u l : Nibble) : (u ++ l : Byte).toNat = 16 * u.toNat + l.toNat := by
  rw [Nat.mul_comm]
  exact toNat_append_eq u l

theorem tableIndices_publishedIp : tableIndices Rom.published.ip = [6, 2, 5, 7, 4, 0, 3, 1] := rfl

theorem tableIndices_publishedIpInv : tableIndices Rom.published.ipInv = [4, 7, 5, 3, 1, 6, 0, 2] := rfl

namespace Machine

/-- R83: STATUS = OK is 0 and the data's upper byte is 0, so the word is the number of its block. -/
theorem xfResponse_eq_ofNat (out : Byte) : xfResponse out = BitVec.ofNat 32 out.toNat := by
  have data : (0#8 ++ out : BitVec 16).toNat = 0 * 2 ^ 8 + out.toNat := toNat_append_eq 0#8 out
  have word : (xfResponse out).toNat = 0 * 2 ^ 16 + (0#8 ++ out : BitVec 16).toNat :=
    toNat_append_eq (statusOk ++ 0#14) (0#8 ++ out)
  apply BitVec.eq_of_toNat_eq
  rw [word, data, BitVec.toNat_ofNat]
  omega

/-- R144: a round adds F of the lower half to the upper half. -/
theorem toNat_feistelRound_upper (rom : Rom) (sk : Byte) (u l : Nibble) :
    (feistelRound rom sk (u, l)).1.toNat = u.toNat ^^^ roundNumber rom l.toNat sk.toNat := by
  rw [← toNat_roundF_eq_roundNumber]
  exact BitVec.toNat_xor _ _

section
variable (rom : Rom) (blk ska skb : Byte)

theorem toNat_xfPath_q :
    (xfPath rom blk ska skb).q.toNat = applyIndices (tableIndices rom.ip) blk.toNat :=
  toNat_applyTable _ _

/-- R145: the half-swap after round 1 moves the lower half of the permuted block up unchanged. -/
theorem toNat_xfPath_u2 : (xfPath rom blk ska skb).u2.toNat = (xfPath rom blk ska skb).q.toNat % 16 :=
  toNat_lowerHalf _

/-- R144, R145: the half-swap moves the result of round 1 down. -/
theorem toNat_xfPath_l2 :
    (xfPath rom blk ska skb).l2.toNat = (xfPath rom blk ska skb).q.toNat / 16 ^^^
      roundNumber rom ((xfPath rom blk ska skb).q.toNat % 16) ska.toNat := by
  rw [← toNat_upperHalf, ← toNat_lowerHalf]
  exact toNat_feistelRound_upper _ _ _ _

/-- R170: no swap follows round 2, whose result stays in the upper half. -/
theorem toNat_xfPath_y :
    (xfPath rom blk ska skb).y.toNat =
      16 * ((xfPath rom blk ska skb).u2.toNat ^^^
        roundNumber rom (xfPath rom blk ska skb).l2.toNat skb.toNat) + (xfPath rom blk ska skb).l2.toNat := by
  rw [← toNat_feistelRound_upper]
  exact toNat_joinBlockHalves _ _

theorem toNat_transform :
    (transform rom blk ska skb).toNat =
      applyIndices (tableIndices rom.ipInv) (xfPath rom blk ska skb).y.toNat :=
  toNat_applyTable _ _

end

end Machine

open Machine

/-- Settles O17: XF answers the number its path computes, and the constant tables are the lists of R130, R132, R133,
R138, R139 and R141. -/
theorem xfAnswersTheTransformedBlock : Obligations.XfAnswersTheTransformedBlock := by
  intro blk ska skb s tables
  have answer : exec (.xf blk ska skb) s = .next (s.respond (xfResponse (transform s.rom blk ska skb))) :=
    exec_eq (.xf blk ska skb) s
  rw [answer, tables, xfResponse_eq_ofNat, toNat_transform, toNat_xfPath_y, toNat_xfPath_l2, toNat_xfPath_u2,
    toNat_xfPath_q, tableIndices_publishedIpInv, tableIndices_publishedIp]
  simp only [roundNumber, tableIndices_publishedEp, tableIndices_publishedP4, sboxNumbers_publishedS0,
    sboxNumbers_publishedS1]
  rfl

end Sys2Proof
end

section
/-! The state right after reset (R231). -/

namespace Sys2Proof

namespace Machine

@[simp] theorem State.reset_rom : State.reset.rom = Rom.published := rfl

/-- One host is connected at reset, which is the model's choice (log entry 3). -/
@[simp] theorem State.reset_hosts : State.reset.hosts = [HostAgent.start []] := rfl

end Machine

open Machine

/-- Settles O42: the only host after reset is a freshly started one, whose fields are those of `HostAgent.start`. -/
theorem resetValues : Obligations.ResetValues := by
  refine ⟨State.reset_rom, fun host connected => ?_⟩
  have fresh : host = HostAgent.start [] := by simpa using connected
  subst fresh
  exact ⟨HostAgent.start_pc _, HostAgent.start_key _, HostAgent.start_sk1 _, HostAgent.start_sk2 _,
    HostAgent.start_fault _, HostAgent.start_requests _, HostAgent.start_responses _⟩

end Sys2Proof
end

section
/-! Encoder and decoder undo each other, and the rows of the opcode table are what the decoder accepts (R71, R72, R77). -/

namespace Sys2Proof

section
variable (key : Key) (blk ska skb : Byte)

theorem reqOp_encode_ks : reqOp (encode (.ks key)) = 0#4 := by
  have below := key.isLt
  rw [reqOp_eq_zero_iff, encode_ks_toNat]
  omega

theorem reqKsReserved_encode_ks : reqKsReserved (encode (.ks key)) = 0#18 := by
  rw [reqKsReserved_eq_zero_iff (reqOp_eq_zero_iff.mp (reqOp_encode_ks key)), encode_ks_toNat]
  exact key.isLt

theorem reqKey_encode_ks : reqKey (encode (.ks key)) = key :=
  extract_append_right (0x0#4 ++ 0#18) key

theorem isXf_encode_xf : Word.isXf (encode (.xf blk ska skb)) = true :=
  (Laws.EncodesToItsRow.xf blk ska skb).2.2

theorem reqBlk_encode_xf : reqBlk (encode (.xf blk ska skb)) = blk :=
  extract_append_right (0x1#4 ++ 0x0#4 ++ skb ++ ska) blk

theorem reqSka_encode_xf : reqSka (encode (.xf blk ska skb)) = ska :=
  (extract_append_high (0x1#4 ++ 0x0#4 ++ skb ++ ska) blk (by omega)).trans
    (extract_append_right (0x1#4 ++ 0x0#4 ++ skb) ska)

theorem reqSkb_encode_xf : reqSkb (encode (.xf blk ska skb)) = skb :=
  (extract_append_high (0x1#4 ++ 0x0#4 ++ skb ++ ska) blk (by omega)).trans
    ((extract_append_high (0x1#4 ++ 0x0#4 ++ skb) ska (by omega)).trans
      (extract_append_right (0x1#4 ++ 0x0#4) skb))

end

section
variable {w : Word}

/-- The row KS and the procedure of R77 agree: its mask covers the opcode and the reserved bits. -/
theorem isKs_iff_fields : Word.isKs w = true ↔ reqOp w = 0#4 ∧ reqKsReserved w = 0#18 := by
  rw [isKs_iff]
  constructor
  · intro below10
    have below28 : w.toNat < 2 ^ 28 := by omega
    exact ⟨reqOp_eq_zero_iff.mpr below28, (reqKsReserved_eq_zero_iff below28).mpr below10⟩
  · rintro ⟨op, zero⟩
    exact (reqKsReserved_eq_zero_iff (reqOp_eq_zero_iff.mp op)).mp zero

/-- The row XF and the procedure of R77 agree: its mask covers the opcode and the reserved bits. -/
theorem isXf_iff_fields : Word.isXf w = true ↔ reqOp w = 1#4 ∧ reqXfReserved w = 0#4 := by
  rw [isXf_iff]
  constructor
  · rintro ⟨from28, belowXf⟩
    have below29 : w.toNat < 2 ^ 29 := by omega
    exact ⟨reqOp_eq_one_iff.mpr ⟨from28, below29⟩, (reqXfReserved_eq_zero_iff from28 below29).mpr belowXf⟩
  · rintro ⟨op, zero⟩
    obtain ⟨from28, below29⟩ := reqOp_eq_one_iff.mp op
    exact ⟨from28, (reqXfReserved_eq_zero_iff from28 below29).mp zero⟩

theorem decode_of_isKs (row : Word.isKs w = true) : decode w = .ok (.ks (reqKey w)) :=
  have ⟨op, zero⟩ := isKs_iff_fields.mp row
  decode_of_ks op zero

theorem decode_of_isXf (row : Word.isXf w = true) : decode w = .ok (.xf (reqBlk w) (reqSka w) (reqSkb w)) :=
  have ⟨op, zero⟩ := isXf_iff_fields.mp row
  decode_of_xf op zero

/-- A word that matches neither row is rejected, by its opcode or by its reserved bits. -/
theorem decode_of_no_row (notKs : ¬ Word.isKs w = true) (notXf : ¬ Word.isXf w = true) :
    ∃ e, decode w = .error e := by
  rw [isKs_iff_fields, not_and] at notKs
  rw [isXf_iff_fields, not_and] at notXf
  by_cases ks : reqOp w = 0#4
  · exact ⟨.reserved, decode_of_ks_reserved ks (notKs ks)⟩
  · by_cases xf : reqOp w = 1#4
    · exact ⟨.reserved, decode_of_xf_reserved xf (notXf xf)⟩
    · exact ⟨.opcode, by rw [decode, if_neg ks, if_neg xf]⟩

/-- The KS row fixes every bit above the key. -/
theorem encode_fields_of_isKs (row : Word.isKs w = true) : encode (.ks (reqKey w)) = w := by
  have below10 := (isKs_iff w).mp row
  apply BitVec.eq_of_toNat_eq
  rw [encode_ks_toNat, reqKey_toNat]
  omega

/-- The XF row fixes every bit above the three operands. -/
theorem encode_fields_of_isXf (row : Word.isXf w = true) :
    encode (.xf (reqBlk w) (reqSka w) (reqSkb w)) = w := by
  have range := (isXf_iff w).mp row
  apply BitVec.eq_of_toNat_eq
  rw [encode_xf_toNat, reqBlk_toNat, reqSka_toNat, reqSkb_toNat]
  omega

theorem encode_of_decode_ok {i : Instr} (accepted : decode w = .ok i) : encode i = w := by
  by_cases ks : Word.isKs w = true
  · rw [decode_of_isKs ks] at accepted
    injection accepted with fields
    rw [← fields, encode_fields_of_isKs ks]
  · by_cases xf : Word.isXf w = true
    · rw [decode_of_isXf xf] at accepted
      injection accepted with fields
      rw [← fields, encode_fields_of_isXf xf]
    · obtain ⟨e, rejected⟩ := decode_of_no_row ks xf
      rw [rejected] at accepted
      cases accepted

end

theorem decode_encode (i : Instr) : decode (encode i) = .ok i := by
  cases i with
  | ks key => rw [decode_of_ks (reqOp_encode_ks key) (reqKsReserved_encode_ks key), reqKey_encode_ks]
  | xf blk ska skb =>
    rw [decode_of_isXf (isXf_encode_xf blk ska skb), reqBlk_encode_xf, reqSka_encode_xf, reqSkb_encode_xf]

/-- Settles O1: the fields of an encoded word are the operands, and it matches its row. -/
theorem decodeOfEncodeIsTheInstruction : Obligations.DecodeOfEncodeIsTheInstruction :=
  decode_encode

/-- Settles O2: an accepted word matches a row, and the row fixes all bits that are no operand. -/
theorem acceptedWordIsTheEncodedWord : Obligations.AcceptedWordIsTheEncodedWord :=
  fun _ _ => encode_of_decode_ok

/-- Settles O4: a word of a row is accepted as that row's operation, and every accepted word is an encoded one, which
matches its own row. -/
theorem decoderAgreesWithTheOpcodeTable : Obligations.DecoderAgreesWithTheOpcodeTable := by
  intro w
  refine ⟨⟨fun row => ⟨_, decode_of_isKs row⟩, ?ks⟩, ⟨fun row => ⟨_, _, _, decode_of_isXf row⟩, ?xf⟩, ?neither⟩
  case ks =>
    rintro ⟨key, accepted⟩
    rw [← encode_of_decode_ok accepted]
    exact (Laws.EncodesToItsRow.ks key).2.1
  case xf =>
    rintro ⟨blk, ska, skb, accepted⟩
    rw [← encode_of_decode_ok accepted]
    exact isXf_encode_xf blk ska skb
  case neither =>
    rw [Word.isRequest, Bool.or_eq_false_iff, ← Bool.not_eq_true, ← Bool.not_eq_true]
    constructor
    · rintro ⟨notKs, notXf⟩
      exact decode_of_no_row notKs notXf
    · rintro ⟨e, rejected⟩
      refine ⟨fun row => ?_, fun row => ?_⟩
      · cases rejected.symm.trans (decode_of_isKs row)
      · cases rejected.symm.trans (decode_of_isXf row)

/-- Settles O5: the two accepted words are the encoder's, and each malformed one fails the check of its row. -/
theorem writtenOutWordsDecode : Obligations.WrittenOutWordsDecode :=
  ⟨decode_encode (.ks 642#10), decode_encode (.xf 0x62#8 0xA4#8 0x43#8),
    decode_of_ks_reserved (by decide) (by decide), decode_of_xf_reserved (by decide) (by decide),
    decode_of_reserved_opcode (by decide)⟩

end Sys2Proof
end

section
/-! What one step can do to one host, and the invariant that follows from it (R22, R25, R51, R81, R86, R176). -/

namespace Sys2Proof.Machine

/-- The host's side of a service: its oldest request, if any, becomes a response (R51). -/
def HostAgent.serviced (rom : Rom) (a : HostAgent) : HostAgent :=
  match a.requests with
  | r :: more => { a with requests := more, responses := a.responses ++ [r.answered rom] }
  | [] => a

theorem HostAgent.serviced_of_requests {a : HostAgent} {r : Request} {more : List Request}
    (h : a.requests = r :: more) (rom : Rom) :
    a.serviced rom = { a with requests := more, responses := a.responses ++ [r.answered rom] } := by
  simp only [serviced, h]

theorem HostAgent.serviced_of_empty {a : HostAgent} (h : a.requests = []) (rom : Rom) : a.serviced rom = a := by
  simp only [serviced, h]

section
variable (rom : Rom) (a : HostAgent)

@[simp] theorem HostAgent.serviced_prog : (a.serviced rom).prog = a.prog := by unfold serviced; split <;> rfl
@[simp] theorem HostAgent.serviced_pc : (a.serviced rom).pc = a.pc := by unfold serviced; split <;> rfl
@[simp] theorem HostAgent.serviced_key : (a.serviced rom).key = a.key := by unfold serviced; split <;> rfl
@[simp] theorem HostAgent.serviced_sk1 : (a.serviced rom).sk1 = a.sk1 := by unfold serviced; split <;> rfl
@[simp] theorem HostAgent.serviced_sk2 : (a.serviced rom).sk2 = a.sk2 := by unfold serviced; split <;> rfl
@[simp] theorem HostAgent.serviced_out : (a.serviced rom).out = a.out := by unfold serviced; split <;> rfl
@[simp] theorem HostAgent.serviced_fault : (a.serviced rom).fault = a.fault := by unfold serviced; split <;> rfl

end

/-- What a step with these inputs to come can do to the host `a` at position `h`. -/
inductive HostAgent.Moves (rom : Rom) (h : Nat) (a : HostAgent) : List Input → HostAgent → Prop where
  | rests (inputs : List Input) : a.Moves rom h inputs a
  | issues (rest : List Input) : a.Moves rom h (.issue h :: rest) a.issue
  | isServiced (rest : List Input) : a.Moves rom h (.serve h :: rest) (a.serviced rom)
  | takes (rest : List Input) {b : HostAgent} : a.take = some b → a.Moves rom h (.take h :: rest) b
  | restarts (rest : List Input) : a.Moves rom h (.reset :: rest) a.restart

/-- Setting host `k` moves host `h` if the two are one, and lets it rest otherwise. -/
theorem moves_of_set {s : State} {h k : Nat} {a c b : HostAgent} (ha : s.hosts[h]? = some a)
    (hc : s.hosts[k]? = some c) (moved : k = h → c = a → a.Moves s.rom h s.inputs b) :
    ∃ b', (s.hosts.set k b)[h]? = some b' ∧ a.Moves s.rom h s.inputs b' := by
  by_cases same : k = h
  · subst same
    have inRange := (List.getElem?_eq_some_iff.mp ha).1
    exact ⟨b, List.getElem?_set_self inRange, moved rfl (Option.some.inj (hc.symm.trans ha))⟩
  · exact ⟨a, (List.getElem?_set_ne same).trans ha, .rests _⟩

theorem step_moves_host {s t : State} {h : Nat} {a : HostAgent} (e : step s = .next t) (ha : s.hosts[h]? = some a) :
    ∃ b, t.hosts[h]? = some b ∧ a.Moves s.rom h s.inputs b := by
  obtain ⟨-, rfl⟩ | ⟨k, rest, c, hi, hc, rfl⟩ | ⟨k, rest, c, r, more, hi, hc, hr, rfl⟩ |
    ⟨k, rest, c, -, -, -, rfl⟩ | ⟨k, rest, c, d, hi, hc, hd, rfl⟩ | ⟨rest, hi, rfl⟩ |
    ⟨prog, rest, -, rfl⟩ := step_cases e
  case inl => exact ⟨a, ha, .rests _⟩
  case inr.inl =>
    refine moves_of_set ha hc fun hk hca => ?_
    subst hk hca
    exact hi ▸ .issues rest
  case inr.inr.inl =>
    refine moves_of_set ha hc fun hk hca => ?_
    subst hk hca
    rw [← HostAgent.serviced_of_requests hr, hi]
    exact .isServiced rest
  case inr.inr.inr.inl => exact ⟨a, ha, .rests _⟩
  case inr.inr.inr.inr.inl =>
    refine moves_of_set ha hc fun hk hca => ?_
    subst hk hca
    exact hi ▸ .takes rest hd
  case inr.inr.inr.inr.inr.inl =>
    refine ⟨a.restart, ?_, hi ▸ .restarts rest⟩
    rw [List.getElem?_map, ha, Option.map_some]
  case inr.inr.inr.inr.inr.inr =>
    exact ⟨a, (List.getElem?_append_left (List.getElem?_eq_some_iff.mp ha).1).trans ha, .rests _⟩

/-- Only the input `connect` adds a host, which has then just joined (R215). -/
theorem step_new_host {s t : State} {h : Nat} {b : HostAgent} (e : step s = .next t) (hs : s.hosts[h]? = none)
    (hb : t.hosts[h]? = some b) : ∃ prog, s.inputs.head? = some (.connect prog) ∧ b = HostAgent.start prog := by
  have outside := List.getElem?_eq_none_iff.mp hs
  have inside := (List.getElem?_eq_some_iff.mp hb).1
  obtain ⟨-, rfl⟩ | ⟨k, rest, c, -, -, rfl⟩ | ⟨k, rest, c, r, more, -, -, -, rfl⟩ |
    ⟨k, rest, c, -, -, -, rfl⟩ | ⟨k, rest, c, d, -, -, -, rfl⟩ | ⟨rest, -, rfl⟩ |
    ⟨prog, rest, hi, rfl⟩ := step_cases e
  case inr.inr.inr.inr.inr.inr =>
    have last : h = s.hosts.length := by
      simp only [List.length_append, List.length_singleton] at inside
      omega
    subst last
    exact ⟨prog, congrArg List.head? hi, by simpa using hb.symm⟩
  all_goals exact absurd (by simpa using inside) outside.not_gt

/-- A claim about hosts that every start and every move keeps is kept by every step. -/
theorem step_keeps_all_hosts {P : HostAgent → Prop} {s t : State} (e : step s = .next t)
    (start : ∀ prog, P (HostAgent.start prog))
    (move : ∀ h a b, P a → a.Moves s.rom h s.inputs b → P b) (before : ∀ a ∈ s.hosts, P a) :
    ∀ b ∈ t.hosts, P b := by
  intro b member
  obtain ⟨h, hb⟩ := List.getElem?_of_mem member
  cases ha : s.hosts[h]? with
  | none =>
    obtain ⟨prog, -, rfl⟩ := step_new_host e ha hb
    exact start prog
  | some a =>
    obtain ⟨b', hb', moved⟩ := step_moves_host e ha
    cases hb.symm.trans hb'
    exact move h a b (before a (List.mem_of_getElem? ha)) moved

/-! ## The invariant of one host -/

/-- The invariant of one host, clause by clause. -/
theorem HostAgent.consistent_iff {rom : Rom} {a : HostAgent} :
    a.consistent rom = true ↔
      a.pc ≤ a.prog.length ∧ a.cellsMatchKey rom = true ∧ (∀ r ∈ a.requests, r.consistent = true) ∧
        ∀ r ∈ a.responses, r.consistent rom = true := by
  simp only [consistent, Bool.and_eq_true, decide_eq_true_eq, List.all_eq_true, and_assoc]

/-- The invariant of the machine, clause by clause. -/
theorem State.consistent_iff {s : State} :
    s.consistent = true ↔ s.rom = Rom.published ∧ ∀ a ∈ s.hosts, a.consistent s.rom = true := by
  simp only [consistent, Bool.and_eq_true, decide_eq_true_eq, List.all_eq_true]

theorem HostAgent.cellsMatchKey_of_unwritten {a : HostAgent} (h1 : a.sk1 = none) (h2 : a.sk2 = none) (rom : Rom) :
    a.cellsMatchKey rom = true := by
  rw [cellsMatchKey, h1, h2]

theorem HostAgent.cellsMatchKey_of_written {rom : Rom} {a : HostAgent} {k : Key} (hk : a.key = some k)
    (h1 : a.sk1 = some (deriveSubkeys rom k).1) (h2 : a.sk2 = some (deriveSubkeys rom k).2) :
    a.cellsMatchKey rom = true := by
  rw [cellsMatchKey, hk, h1, h2]
  exact beq_self_eq_true _

section
variable {rom : Rom} {a : HostAgent}

theorem HostAgent.start_consistent (prog : List Line) : (HostAgent.start prog).consistent rom = true :=
  consistent_iff.mpr ⟨Nat.zero_le _, rfl, List.forall_mem_nil _, List.forall_mem_nil _⟩

/-- The invariant does not speak of the fault record. -/
theorem HostAgent.record_consistent (ok : a.consistent rom = true) (f : HostFault) :
    (a.record f).consistent rom = true := ok

/-- R22, R86: a host short of the end of its list may send a request that is what the protocol says. -/
theorem HostAgent.send_consistent (ok : a.consistent rom = true) (more : a.pc < a.prog.length) {u : Purpose} {w : Word}
    (request : Request.consistent { purpose := u, word := w } = true) : (a.send u w).consistent rom = true := by
  obtain ⟨-, cells, requests, responses⟩ := consistent_iff.mp ok
  refine consistent_iff.mpr ⟨more, cells, ?_, responses⟩
  rw [send_requests, List.forall_mem_append, List.forall_mem_singleton]
  exact ⟨requests, request⟩

theorem Request.block_consistent (d : Direction) (k1 k2 blk : Byte) :
    Request.consistent { purpose := .block, word := encode (blockInstr d k1 k2 blk) } = true :=
  isXf_encode_xf _ _ _

theorem Request.session_consistent (k : Key) :
    Request.consistent { purpose := .session k, word := encode (.ks k) } = true :=
  beq_self_eq_true _

theorem HostAgent.issueBlock_consistent (ok : a.consistent rom = true) (more : a.pc < a.prog.length) (d : Direction)
    (blk : Byte) : (a.issueBlock d blk).consistent rom = true := by
  unfold issueBlock
  split
  · exact send_consistent ok more (Request.block_consistent _ _ _ _)
  · exact record_consistent ok _

/-- Beginning a session leaves no subkey that the new key would have to match (log entry 13). -/
theorem HostAgent.issueSession_consistent (ok : a.consistent rom = true) (more : a.pc < a.prog.length) (key : Int) :
    (a.issueSession key).consistent rom = true := by
  obtain ⟨pc, -, requests, responses⟩ := consistent_iff.mp ok
  have begun : { a with key := some (BitVec.ofInt 10 key), sk1 := none, sk2 := none }.consistent rom = true :=
    consistent_iff.mpr ⟨pc, cellsMatchKey_of_unwritten rfl rfl rom, requests, responses⟩
  unfold issueSession
  split
  · exact send_consistent begun more (Request.session_consistent _)
  · exact record_consistent ok _

theorem HostAgent.issueLine_consistent (ok : a.consistent rom = true) (more : a.pc < a.prog.length) (line : Line) :
    (a.issueLine line).consistent rom = true := by
  cases line with
  | ks | xf | word => exact send_consistent ok more rfl
  | session key => exact issueSession_consistent ok more key
  | enc blk | dec blk => exact issueBlock_consistent ok more _ blk

theorem HostAgent.issue_consistent (ok : a.consistent rom = true) : a.issue.consistent rom = true := by
  cases hf : a.fault with
  | some f => rwa [issue_of_fault hf]
  | none =>
    cases hl : a.prog[a.pc]? with
    | none => rwa [issue_at_end hl]
    | some line =>
      rw [issue_line hf hl]
      exact issueLine_consistent ok (List.getElem?_eq_some_iff.mp hl).1 line

/-- R82, R83: the core answers a request that is what the protocol says with a response that is. -/
theorem Request.answered_consistent {r : Request} (ok : r.consistent = true) :
    (r.answered rom).consistent rom = true := by
  obtain ⟨purpose, word⟩ := r
  rw [answered, Response.consistent, isResponse_answerWord, Bool.true_and]
  cases purpose with
  | raw => rfl
  | session k =>
    obtain rfl : word = encode (.ks k) := eq_of_beq ok
    exact beq_iff_eq.mpr (answerWord_of_ok (decode_encode (.ks k)) rom)
  | block =>
    have answer : answerWord rom word = xfAnswer rom (reqBlk word) (reqSka word) (reqSkb word) :=
      answerWord_of_ok (decode_of_isXf ok) rom
    simp only [answer, xfAnswer, rspDataLow_xfResponse, beq_self_eq_true]

theorem HostAgent.serviced_consistent (ok : a.consistent rom = true) : (a.serviced rom).consistent rom = true := by
  cases hr : a.requests with
  | nil => rwa [serviced_of_empty hr]
  | cons r more =>
    obtain ⟨pc, cells, requests, responses⟩ := consistent_iff.mp ok
    rw [hr, List.forall_mem_cons] at requests
    obtain ⟨oldest, others⟩ := requests
    rw [serviced_of_requests hr]
    refine consistent_iff.mpr ⟨pc, cells, others, ?_⟩
    rw [List.forall_mem_append, List.forall_mem_singleton]
    exact ⟨responses, Request.answered_consistent oldest⟩

/-- R176: what a response may write into the cells is the key schedule of the key that the host holds. -/
theorem HostAgent.absorb_consistent (ok : a.consistent rom = true) {r : Response} (response : r.consistent rom = true) :
    (a.absorb r).consistent rom = true := by
  obtain ⟨pc, cells, requests, responses⟩ := consistent_iff.mp ok
  obtain ⟨purpose, word⟩ := r
  cases purpose with
  | raw => exact ok
  | session k =>
    obtain ⟨-, schedule⟩ := Bool.and_eq_true_iff.mp response
    obtain rfl : word = ksAnswer rom k := eq_of_beq schedule
    simp only [absorb]
    split
    · split
      · rename_i sameKey
        refine consistent_iff.mpr ⟨pc, cellsMatchKey_of_written sameKey ?_ ?_, requests, responses⟩
        · exact congrArg some (rspDataHigh_ksResponse _ _)
        · exact congrArg some (rspDataLow_ksResponse _ _)
      · exact ok
    · exact record_consistent ok _
  | block =>
    simp only [absorb]
    split
    · exact ok
    · exact record_consistent ok _

theorem HostAgent.take_consistent {b : HostAgent} (ok : a.consistent rom = true) (taken : a.take = some b) :
    b.consistent rom = true := by
  cases hf : a.fault with
  | some f =>
    cases (take_of_fault hf).symm.trans taken
    exact ok
  | none =>
    cases hr : a.responses with
    | nil =>
      cases (take_of_empty hr).symm.trans taken
      exact ok
    | cons r more =>
      obtain ⟨pc, cells, requests, responses⟩ := consistent_iff.mp ok
      rw [hr, List.forall_mem_cons] at responses
      obtain ⟨oldest, others⟩ := responses
      have without : { a with responses := more }.consistent rom = true :=
        consistent_iff.mpr ⟨pc, cells, requests, others⟩
      rw [take_response hf hr] at taken
      split at taken
      · cases taken
      · cases taken
        exact absorb_consistent without oldest

theorem HostAgent.Moves.consistent {h : Nat} {inputs : List Input} {b : HostAgent} (moved : a.Moves rom h inputs b)
    (ok : a.consistent rom = true) : b.consistent rom = true := by
  cases moved with
  | rests => exact ok
  | issues => exact issue_consistent ok
  | isServiced => exact serviced_consistent ok
  | takes _ taken => exact take_consistent ok taken
  | restarts => exact start_consistent a.prog

end

theorem step_keeps_consistent {s t : State} (ok : s.consistent = true) (e : step s = .next t) :
    t.consistent = true := by
  obtain ⟨tables, hosts⟩ := State.consistent_iff.mp ok
  rw [State.consistent_iff, step_rom e]
  exact ⟨tables, step_keeps_all_hosts e HostAgent.start_consistent (fun _ _ _ good moved => moved.consistent good)
    hosts⟩

end Sys2Proof.Machine

namespace Sys2Proof
open Machine

/-- Settles O45: the host after reset is a freshly started one. -/
theorem resetIsConsistent : Obligations.ResetIsConsistent := by
  refine State.consistent_iff.mpr ⟨State.reset_rom, ?_⟩
  rw [State.reset_hosts, List.forall_mem_singleton]
  exact HostAgent.start_consistent []

/-- Settles O46: a step leaves the tables alone, and each of its moves keeps the invariant of a host. -/
theorem everyStepKeepsConsistency : Obligations.EveryStepKeepsConsistency :=
  fun _ _ => step_keeps_consistent

end Sys2Proof
end

section
/-! The round trip of the transform and of the driver (R173 to R175). -/

namespace Sys2Proof

/-- Two permutations undo each other when their index lists do. Both lists go from the most significant result bit
down, so an index is read from its other end. -/
theorem applyTable_applyTable {n m : Nat} {t : PermTable n m} {u : PermTable m n}
    (undo : ∀ i : Fin n, t.get (u.get i).rev = i.rev) (v : BitVec n) : applyTable u (applyTable t v) = v := by
  apply BitVec.eq_of_getMsbD_eq
  intro i hi
  have place : (applyTable t v).getLsb (u.get ⟨i, hi⟩) = v.getLsb (t.get (u.get ⟨i, hi⟩).rev) := by
    rw [applyTable, BitVec.getLsb_ofFnBE]
  rw [applyTable_getMsbD u (applyTable t v) ⟨i, hi⟩, place, undo, BitVec.getMsbD_eq_getLsbD, decide_eq_true hi,
    Bool.true_and]
  exact congrArg v.getLsbD (Nat.sub_right_comm n 1 i ▸ rfl)

/-- R132. -/
theorem publishedIpInv_ip (v : Byte) : applyTable Rom.published.ipInv (applyTable Rom.published.ip v) = v :=
  applyTable_applyTable (by decide) v

/-- R132, the other order. -/
theorem publishedIp_ipInv (v : Byte) : applyTable Rom.published.ip (applyTable Rom.published.ipInv v) = v :=
  applyTable_applyTable (by decide) v

namespace Machine

/-- R173: the reversed order peels the rounds off from the outside, and the swap between them is its own inverse. -/
theorem transform_transform {rom : Rom} (ipInv_ip : ∀ v : Byte, applyTable rom.ipInv (applyTable rom.ip v) = v)
    (ip_ipInv : ∀ v : Byte, applyTable rom.ip (applyTable rom.ipInv v) = v) (blk a b : Byte) :
    transform rom (transform rom blk a b) b a = blk := by
  rw [transform_eq_chain, transform_eq_chain, ip_ipInv, halves_joinHalves, feistelRound_feistelRound,
    halfSwap_halfSwap, feistelRound_feistelRound, joinHalves_halves, ipInv_ip]

theorem published_transform_transform (blk a b : Byte) :
    transform Rom.published (transform Rom.published blk a b) b a = blk :=
  transform_transform publishedIpInv_ip publishedIp_ipInv blk a b

/-- R174: the reversed order is the inverse. -/
theorem published_transform_eq_iff (b c ska skb : Byte) :
    transform Rom.published b ska skb = c ↔ transform Rom.published c skb ska = b := by
  constructor <;>
  · rintro rfl
    exact published_transform_transform _ _ _

/-- R173 for the driver's single bytes: decryption takes the subkeys in the reversed order. -/
theorem published_decrypt_encrypt (k1 k2 b : Byte) :
    cryptByte Rom.published .decrypt k1 k2 (cryptByte Rom.published .encrypt k1 k2 b) = b :=
  published_transform_transform b k1 k2

theorem published_encrypt_decrypt (k1 k2 b : Byte) :
    cryptByte Rom.published .encrypt k1 k2 (cryptByte Rom.published .decrypt k1 k2 b) = b :=
  published_transform_transform b k2 k1

/-- R175: what undoes each byte undoes the sequence. -/
theorem cryptStream_cryptStream {rom : Rom} {d e : Direction} {k1 k2 : Byte}
    (undo : ∀ b, cryptByte rom e k1 k2 (cryptByte rom d k1 k2 b) = b) (input : List Byte) :
    cryptStream rom e k1 k2 (cryptStream rom d k1 k2 input) = input := by
  have bytes : cryptByte rom e k1 k2 ∘ cryptByte rom d k1 k2 = id := funext undo
  rw [cryptStream, cryptStream, List.map_map, bytes, List.map_id]

end Machine

open Machine

/-- Settles O19, from the chain of the transform; the published tables meet the premise. -/
theorem reversedSubkeysUndoTheTransform : Obligations.ReversedSubkeysUndoTheTransform :=
  ⟨fun _ => transform_transform, fun _ blk => published_transform_transform blk _ _⟩

/-- Settles O20: the transform with the subkeys reversed is a two-sided inverse. -/
theorem transformIsABijectionOfBlocks : Obligations.TransformIsABijectionOfBlocks := by
  intro ska skb
  have inverse : Function.LeftInverse (transform Rom.published · skb ska) (transform Rom.published · ska skb) ∧
      Function.RightInverse (transform Rom.published · skb ska) (transform Rom.published · ska skb) :=
    ⟨fun blk => published_transform_transform blk _ _, fun blk => published_transform_transform blk _ _⟩
  exact ⟨Function.bijective_iff_has_inverse.mpr ⟨_, inverse⟩, fun b c => published_transform_eq_iff b c ska skb⟩

/-- Settles O52, byte by byte. -/
theorem streamRoundTrips : Obligations.StreamRoundTrips := by
  intro key input
  exact ⟨cryptStream_cryptStream (published_decrypt_encrypt _ _) input,
    cryptStream_cryptStream (published_encrypt_decrypt _ _) input⟩

end Sys2Proof
end

section
/-! The published tables written out, and the subkeys in closed form (R100, R103 to R109, R132, R134, R143). -/

namespace Sys2Proof

/-- Eight bits joined, the most significant first. -/
theorem joinBits_eq_ofFnBE (b0 b1 b2 b3 b4 b5 b6 b7 : Bool) :
    (BitVec.ofBool b0 ++ BitVec.ofBool b1 ++ BitVec.ofBool b2 ++ BitVec.ofBool b3 ++ BitVec.ofBool b4 ++
      BitVec.ofBool b5 ++ BitVec.ofBool b6 ++ BitVec.ofBool b7 : Byte) =
      BitVec.ofFnBE ![b0, b1, b2, b3, b4, b5, b6, b7] := by
  revert b0 b1 b2 b3 b4 b5 b6 b7
  decide

/-- A result of eight bits is known when the source of each bit is. -/
theorem applyTable_eq_ofFnBE {n : Nat} {t : PermTable n 8} {v : BitVec n} {bits : Fin 8 → Bool}
    (sources : ∀ j, v.getLsb (t.get j) = bits j) : applyTable t v = BitVec.ofFnBE bits :=
  congrArg BitVec.ofFnBE (funext sources)

/-- R132 written out. -/
theorem applyTable_publishedIpInv (v : Byte) :
    applyTable Rom.published.ipInv v =
      (BitVec.ofBool (v.getLsbD 4) ++ BitVec.ofBool (v.getLsbD 7) ++ BitVec.ofBool (v.getLsbD 5) ++
        BitVec.ofBool (v.getLsbD 3) ++ BitVec.ofBool (v.getLsbD 1) ++ BitVec.ofBool (v.getLsbD 6) ++
        BitVec.ofBool (v.getLsbD 0) ++ BitVec.ofBool (v.getLsbD 2) : Byte) := by
  rw [joinBits_eq_ofFnBE]
  exact applyTable_eq_ofFnBE fun j => by fin_cases j <;> rfl

/-- R133 written out. -/
theorem applyTable_publishedEp (h : Nibble) :
    applyTable Rom.published.ep h =
      (BitVec.ofBool (h.getLsbD 0) ++ BitVec.ofBool (h.getLsbD 3) ++ BitVec.ofBool (h.getLsbD 2) ++
        BitVec.ofBool (h.getLsbD 1) ++ BitVec.ofBool (h.getLsbD 2) ++ BitVec.ofBool (h.getLsbD 1) ++
        BitVec.ofBool (h.getLsbD 0) ++ BitVec.ofBool (h.getLsbD 3) : Byte) := by
  rw [joinBits_eq_ofFnBE]
  exact applyTable_eq_ofFnBE fun j => by fin_cases j <;> rfl

/-- R134: the first four source bits are the half rotated right by one, the last four the half rotated left by one. -/
theorem applyTable_publishedEp_eq_rotations (h : Nibble) :
    applyTable Rom.published.ep h = (h.rotateRight 1 ++ h.rotateLeft 1 : Byte) := by
  rw [applyTable_publishedEp]
  revert h
  decide

/-! ## The subkeys -/

/-- Both halves of a 10-bit value rotated left by `s` (R103, R107). -/
def rotateHalves (s : Nat) (p : BitVec 10) : BitVec 10 :=
  (p.extractLsb' 5 5).rotateLeft s ++ (p.extractLsb' 0 5).rotateLeft s

/-- Where the bit `i` comes from when both halves are rotated left by `s`: its own half, `s` places below. -/
def rotatedSource (s : Nat) (i : Fin 10) : Fin 10 :=
  ⟨5 * (i / 5) + (i % 5 + 5 - s) % 5, by omega⟩

/-- Each half is rotated for itself: no bit crosses from one to the other. -/
theorem getLsbD_rotateHalves {s : Nat} (hs : s < 5) (p : BitVec 10) (i : Fin 10) :
    (rotateHalves s p).getLsbD i = p.getLsbD (rotatedSource s i) := by
  obtain ⟨i, hi⟩ := i
  have join : (rotateHalves s p).getLsbD i = _ :=
    BitVec.getLsbD_append (x := (p.extractLsb' 5 5).rotateLeft s) (y := (p.extractLsb' 0 5).rotateLeft s)
  rw [join, ← rol5_eq_rotateLeft _ hs, ← rol5_eq_rotateLeft _ hs]
  by_cases lower : i < 5
  · have source : 5 * (i / 5) + (i % 5 + 5 - s) % 5 = (i + 5 - s) % 5 := by omega
    have inside : (i + 5 - s) % 5 < 5 := by omega
    rw [if_pos lower, getLsbD_rol5 _ hs lower]
    simp [rotatedSource, source, inside]
  · have source : 5 * (i / 5) + (i % 5 + 5 - s) % 5 = 5 + (i - 5 + 5 - s) % 5 := by omega
    have inside : (i - 5 + 5 - s) % 5 < 5 := by omega
    rw [if_neg lower, getLsbD_rol5 _ hs (by omega)]
    simp only [rotatedSource, source]
    simp [inside]

/-- R103, R107: two rotations in a row are one. -/
theorem rol5_rol5 (x : KeyHalf) : rol5 (rol5 x 1) 2 = x.rotateLeft 3 := by
  revert x
  decide

namespace Machine

/-- R104, R106, R108: each subkey is P8 of the halves of P10 rotated by 1 or by 3. -/
theorem deriveSubkeys_eq_rotateHalves (rom : Rom) (key : Key) :
    deriveSubkeys rom key =
      (applyTable rom.p8 (rotateHalves 1 (applyTable rom.p10 key)),
        applyTable rom.p8 (rotateHalves 3 (applyTable rom.p10 key))) := by
  rw [rotateHalves, rotateHalves, ← rol5_rol5, ← rol5_rol5, ← rol5_eq_rotateLeft _ (by omega),
    ← rol5_eq_rotateLeft _ (by omega)]
  rfl

/-- The source of every bit of P8 of the rotated halves of P10 is one bit of the key. -/
theorem getLsb_rotateHalves_applyTable {s : Nat} (hs : s < 5) (t : PermTable 10 10) (key : Key) (i : Fin 10) :
    (rotateHalves s (applyTable t key)).getLsb i = key.getLsb (t.get (rotatedSource s i).rev) := by
  have source : (rotateHalves s (applyTable t key)).getLsb i = (applyTable t key).getLsb (rotatedSource s i) :=
    getLsbD_rotateHalves hs _ i
  rw [source, applyTable, BitVec.getLsb_ofFnBE]

/-- R109: the key bits that K1 is made of, the most significant first. -/
def k1Sources : Fin 8 → Fin 10 := ![9, 3, 1, 6, 2, 7, 0, 4]

/-- R109: the key bits that K2 is made of, the most significant first. -/
def k2Sources : Fin 8 → Fin 10 := ![2, 7, 4, 5, 0, 8, 1, 9]

/-- R109. -/
theorem deriveSubkeys_published (key : Key) :
    deriveSubkeys Rom.published key =
      (BitVec.ofFnBE fun j => key.getLsb (k1Sources j), BitVec.ofFnBE fun j => key.getLsb (k2Sources j)) := by
  have k1 : ∀ j, (Rom.published.p10.get (rotatedSource 1 (Rom.published.p8.get j)).rev) = k1Sources j := by decide
  have k2 : ∀ j, (Rom.published.p10.get (rotatedSource 3 (Rom.published.p8.get j)).rev) = k2Sources j := by decide
  rw [deriveSubkeys_eq_rotateHalves]
  congr 1
  · exact applyTable_eq_ofFnBE fun j => by rw [getLsb_rotateHalves_applyTable (by omega), k1]
  · exact applyTable_eq_ofFnBE fun j => by rw [getLsb_rotateHalves_applyTable (by omega), k2]

/-- The subkeys are equal when the key bits they are made of agree place by place. -/
theorem subkeys_eq_iff_sources_agree (key : Key) :
    (deriveSubkeys Rom.published key).1 = (deriveSubkeys Rom.published key).2 ↔
      ∀ j, key.getLsb (k1Sources j) = key.getLsb (k2Sources j) := by
  rw [deriveSubkeys_published]
  constructor
  · intro equal j
    simpa using congrArg (BitVec.getMsb · j) equal
  · intro agree
    simp only [agree]

/-- The eight places tie the ten key bits together into three classes, here named by their lowest bits. -/
theorem bit_eq_of_sources_agree {bit : Fin 10 → Bool} (agree : ∀ j, bit (k1Sources j) = bit (k2Sources j))
    (i : Fin 10) :
    bit i = ![bit 0, bit 0, bit 0, bit 3, bit 0, bit 5, bit 5, bit 3, bit 3, bit 0] i := by
  have e1 : bit 1 = bit 0 := (agree 6).symm
  have e2 : bit 2 = bit 0 := agree 4
  have e4 : bit 4 = bit 0 := (agree 2).symm.trans e1
  have e6 : bit 6 = bit 5 := agree 3
  have e7 : bit 7 = bit 3 := (agree 1).symm
  have e8 : bit 8 = bit 3 := (agree 5).symm.trans e7
  have e9 : bit 9 = bit 0 := (agree 0).trans e2
  fin_cases i
  exacts [rfl, e1, e2, rfl, e4, rfl, e6, e7, e8, e9]

/-- The key whose bits 0, 1, 2, 4, 9 are `x`, whose bits 3, 7, 8 are `y` and whose bits 5, 6 are `z`. -/
def keyOfClasses (x y z : Bool) : Key := BitVec.ofFnLE ![x, x, x, y, x, z, z, y, y, x]

theorem eq_keyOfClasses_of_agree {key : Key} (agree : ∀ j, key.getLsb (k1Sources j) = key.getLsb (k2Sources j)) :
    key = keyOfClasses (key.getLsb 0) (key.getLsb 3) (key.getLsb 5) := by
  apply BitVec.eq_of_getLsbD_eq
  intro i hi
  exact (bit_eq_of_sources_agree agree ⟨i, hi⟩).trans (BitVec.getLsb_ofFnLE _ _).symm

theorem toNat_keyOfClasses_mem (x y z : Bool) :
    (keyOfClasses x y z).toNat ∈ [0, 96, 392, 488, 535, 631, 927, 1023] := by
  revert x y z
  decide

theorem sources_agree_of_mem {key : Key} (listed : key.toNat ∈ [0, 96, 392, 488, 535, 631, 927, 1023]) :
    ∀ j, key.getLsb (k1Sources j) = key.getLsb (k2Sources j) := by
  have each : ∀ n ∈ [0, 96, 392, 488, 535, 631, 927, 1023], ∀ j,
      (BitVec.ofNat 10 n).getLsb (k1Sources j) = (BitVec.ofNat 10 n).getLsb (k2Sources j) := by decide
  have self : BitVec.ofNat 10 key.toNat = key := by simp
  rw [← self]
  exact each _ listed

end Machine

open Machine

/-- Settles O8: no index of P10 is listed twice, and every index is listed. -/
theorem keyPermutationIsABijection : Obligations.KeyPermutationIsABijection := by
  have once : Rom.published.p10.toList.Nodup := by decide
  have every : ∀ i, i ∈ Rom.published.p10.toList := by decide
  exact fun i => List.count_eq_one_of_mem once (every i)

/-- Settles O9, from the index lists of the two tables. -/
theorem inversePermutationUndoesInitial : Obligations.InversePermutationUndoesInitial :=
  fun v => ⟨applyTable_publishedIpInv v, publishedIpInv_ip v, publishedIp_ipInv v⟩

/-- Settles O10, from the index list of EP. -/
theorem expansionIsTwoRotations : Obligations.ExpansionIsTwoRotations :=
  fun h => ⟨applyTable_publishedEp h, applyTable_publishedEp_eq_rotations h⟩

/-- Settles O11: the lookup by row and column of the input, on the numbers R138 and R139 list. -/
theorem sboxesByInputValue : Obligations.SboxesByInputValue := by
  intro x
  rw [toNat_sboxEntry_row_col, toNat_sboxEntry_row_col, sboxNumbers_publishedS0, sboxNumbers_publishedS1]
  revert x
  decide

/-- Settles O13, from the source of every subkey bit. -/
theorem subkeysHaveTheClosedForm : Obligations.SubkeysHaveTheClosedForm := by
  intro key b
  rw [joinBits_eq_ofFnBE, joinBits_eq_ofFnBE, deriveSubkeys_published]
  congr 2 <;>
  · funext j
    fin_cases j <;> rfl

/-- Settles O15: equal subkeys leave one free bit to each of three classes, and the eight choices are these keys. -/
theorem equalSubkeysForEightKeys : Obligations.EqualSubkeysForEightKeys := by
  intro key
  rw [subkeys_eq_iff_sources_agree]
  refine ⟨fun agree => ?_, sources_agree_of_mem⟩
  rw [eq_keyOfClasses_of_agree agree]
  exact toNat_keyOfClasses_mem _ _ _

/-- Settles O14: the second rotation starts from halves already rotated once. -/
theorem subkeyHalvesRotateByOneAndThree : Obligations.SubkeyHalvesRotateByOneAndThree :=
  deriveSubkeys_eq_rotateHalves

end Sys2Proof
end

section
/-! The step at a request in hand: exactly the decoded request, and only the answered host's queues change (R46, R77,
R200, R204). -/

namespace Sys2Proof.Machine

theorem decode_requestWord_of_table_word {nbits w : Nat} {i : Instr} (e : decodeTableWord nbits w = some i) :
    decode (requestWord nbits w) = .ok i := by
  unfold decodeTableWord at e
  split at e
  · cases e
    assumption
  · cases e

theorem step_eq_exec {s : State} {h : Nat} {r : Request} {i : Instr} (hc : s.current = some (h, r))
    (accepted : decode r.word = .ok i) : step s = exec i s := by
  rw [step_serve hc, answerWord_of_ok accepted, exec_eq]

end Sys2Proof.Machine

namespace Sys2Proof
open Machine

/-- Settles O18: each operation only answers. -/
theorem noOperationRaisesAnException : Obligations.NoOperationRaisesAnException :=
  fun i s => ⟨_, exec_eq i s⟩

/-- Settles O21: an operation only answers, and the answer sets the one host whose request is in hand. -/
theorem operationsChangeOnlyTheAnsweredQueues : Obligations.OperationsChangeOnlyTheAnsweredQueues := by
  intro i s t h r hc executed
  obtain ⟨rest, a, more, hi, ha, hr, answered⟩ := State.respond_eq hc (instrAnswer s.rom i)
  rw [exec_eq, answered] at executed
  cases executed
  have inRange : h < s.hosts.length := (List.getElem?_eq_some_iff.mp ha).1
  refine ⟨rfl, congrArg List.tail hi.symm, List.length_set, fun k other => List.getElem?_set_ne other.symm, ?_⟩
  exact ⟨a, _, ha, List.getElem?_set_self inRange, rfl, rfl, rfl, rfl, rfl, rfl, rfl, hr, _, rfl⟩

/-- Settles O22. -/
theorem stepRunsTheDecodedRequest : Obligations.StepRunsTheDecodedRequest :=
  fun _ _ _ _ => step_eq_exec

/-- Settles O23: a placed word is the request in hand. -/
theorem placedWordIsTheNextToRun : Obligations.PlacedWordIsTheNextToRun := by
  intro s nbits w i e
  exact step_eq_exec (State.presentRequest_current s (requestWord nbits w)) (decode_requestWord_of_table_word e)

/-- Settles O26: the error response is an answer like any other. -/
theorem malformedRequestChangesOnlyTheAnsweredQueues : Obligations.MalformedRequestChangesOnlyTheAnsweredQueues := by
  intro s h r e hc rejected
  obtain ⟨rest, a, more, hi, ha, hr, answered⟩ := State.respond_eq hc (errorResponse e)
  refine ⟨_, a, { a with requests := more, responses := a.responses ++ [⟨r.purpose, errorResponse e⟩] },
    errorResponse e, step_of_decode_error hc rejected, ha, hr, rfl, ?_⟩
  rw [answered, hi, List.tail_cons]

end Sys2Proof
end

section
/-! When a step stops, one equation per input (R81; log entries 5 and 11). -/

namespace Sys2Proof.Machine

section
variable {s : State} {h : Nat} {rest : List Input}

theorem step_issue_missing (hi : s.inputs = .issue h :: rest) (missing : s.hosts.length ≤ h) :
    step s = .fault .noSuchHost := by
  rw [step_issue hi, State.issueInput, if_neg missing.not_gt]

theorem step_serve_missing (hi : s.inputs = .serve h :: rest) (missing : s.hosts.length ≤ h) :
    step s = .fault .noSuchHost := by
  have hc : s.current = none := by
    rw [State.current, hi]
    simp only [List.getElem?_eq_none missing]
  rw [step_serve_idle hi hc, State.idleServe, if_neg missing.not_gt]

theorem step_take_missing (hi : s.inputs = .take h :: rest) (missing : s.hosts.length ≤ h) :
    step s = .fault .noSuchHost := by
  rw [step_take hi, State.takeInput]
  simp only [List.getElem?_eq_none missing]

/-- The step of the input `serve h` for a host that exists, with a request in hand or at rest. -/
theorem step_serve_host {a : HostAgent} (hi : s.inputs = .serve h :: rest) (ha : s.hosts[h]? = some a) :
    step s = .next { s with inputs := rest, hosts := s.hosts.set h (a.serviced s.rom) } := by
  cases hr : a.requests with
  | cons r more => rw [step_serve_eq hi ha hr, HostAgent.serviced_of_requests hr]
  | nil =>
    have hc : s.current = none := by
      rw [State.current, hi]
      simp only [ha, hr]
    have inRange : h < s.hosts.length := (List.getElem?_eq_some_iff.mp ha).1
    rw [step_serve_idle hi hc, State.idleServe, if_pos inRange, HostAgent.serviced_of_empty hr, hosts_set_same ha,
      State.consume, hi, List.tail_cons]

/-- The step of the input `take h` for a host whose oldest response has no rule. -/
theorem step_take_refused {a : HostAgent} (hi : s.inputs = .take h :: rest) (ha : s.hosts[h]? = some a)
    (noRule : a.take = none) : step s = .refused .statusNeverProduced := by
  rw [step_take hi, State.takeInput]
  simp only [ha, noRule]

end

/-- A host takes nothing exactly when the oldest response it could take has the STATUS no rule speaks of. -/
theorem HostAgent.take_eq_none_iff {a : HostAgent} :
    a.take = none ↔ a.fault = none ∧ ∃ r more, a.responses = r :: more ∧ rspStatus r.word = statusUnused := by
  cases hf : a.fault with
  | some f => simp [take_of_fault hf]
  | none =>
    cases hr : a.responses with
    | nil => simp [take_of_empty hr]
    | cons r more => simp [take_response hf hr]

/-- A step stops for one of two reasons: the host its input names is missing, or takes a response without a rule. -/
theorem step_stops_cases (s : State) :
    (∃ t, step s = .next t) ∨
    (step s = .fault .noSuchHost ∧ ∃ h, s.hosts.length ≤ h ∧
      (s.inputs.head? = some (.issue h) ∨ s.inputs.head? = some (.serve h) ∨ s.inputs.head? = some (.take h))) ∨
    (step s = .refused .statusNeverProduced ∧ ∃ h a, s.inputs.head? = some (.take h) ∧ s.hosts[h]? = some a ∧
      a.take = none) := by
  cases hi : s.inputs with
  | nil => exact .inl ⟨s, step_no_input hi⟩
  | cons input rest =>
    cases input with
    | issue h =>
      cases ha : s.hosts[h]? with
      | some a => exact .inl ⟨_, step_issue_eq hi ha⟩
      | none =>
        have missing := List.getElem?_eq_none_iff.mp ha
        exact .inr (.inl ⟨step_issue_missing hi missing, h, missing, .inl rfl⟩)
    | serve h =>
      cases ha : s.hosts[h]? with
      | some a => exact .inl ⟨_, step_serve_host hi ha⟩
      | none =>
        have missing := List.getElem?_eq_none_iff.mp ha
        exact .inr (.inl ⟨step_serve_missing hi missing, h, missing, .inr (.inl rfl)⟩)
    | take h =>
      cases ha : s.hosts[h]? with
      | some a =>
        cases hb : a.take with
        | some b => exact .inl ⟨_, step_take_eq hi ha hb⟩
        | none => exact .inr (.inr ⟨step_take_refused hi ha hb, h, a, rfl, ha, hb⟩)
      | none =>
        have missing := List.getElem?_eq_none_iff.mp ha
        exact .inr (.inl ⟨step_take_missing hi missing, h, missing, .inr (.inr rfl)⟩)
    | reset => exact .inl ⟨_, step_reset hi⟩
    | connect prog => exact .inl ⟨_, step_connect hi⟩

/-- The fault, from the input (log entry 5). -/
theorem step_of_missing_host {s : State} {h : Nat} (missing : s.hosts.length ≤ h)
    (named : s.inputs.head? = some (.issue h) ∨ s.inputs.head? = some (.serve h) ∨
      s.inputs.head? = some (.take h)) : step s = .fault .noSuchHost := by
  obtain issued | served | taken := named
  · obtain ⟨rest, hi⟩ := List.head?_eq_some_iff.mp issued
    exact step_issue_missing hi missing
  · obtain ⟨rest, hi⟩ := List.head?_eq_some_iff.mp served
    exact step_serve_missing hi missing
  · obtain ⟨rest, hi⟩ := List.head?_eq_some_iff.mp taken
    exact step_take_missing hi missing

/-- The refusal, from the input and the host (log entry 11). -/
theorem step_refused_iff (s : State) :
    (∃ r, step s = .refused r) ↔
      ∃ h a, s.inputs.head? = some (.take h) ∧ s.hosts[h]? = some a ∧ a.take = none := by
  constructor
  · rintro ⟨r, refused⟩
    obtain ⟨t, next⟩ | ⟨fault, -⟩ | ⟨-, reason⟩ := step_stops_cases s
    · cases refused.symm.trans next
    · cases refused.symm.trans fault
    · exact reason
  · rintro ⟨h, a, taken, ha, noRule⟩
    obtain ⟨rest, hi⟩ := List.head?_eq_some_iff.mp taken
    exact ⟨_, step_take_refused hi ha noRule⟩

/-- A consistent host holds no response without a rule (R81). -/
theorem HostAgent.take_ne_none_of_consistent {rom : Rom} {a : HostAgent} (ok : a.consistent rom = true) :
    a.take ≠ none := by
  intro noRule
  obtain ⟨-, r, more, hr, unused⟩ := take_eq_none_iff.mp noRule
  obtain ⟨-, -, -, responses⟩ := consistent_iff.mp ok
  obtain ⟨layout, -⟩ := Bool.and_eq_true_iff.mp (responses r (hr ▸ List.mem_cons_self))
  exact (isResponse_iff.mp layout).1 unused

/-! ## Which moves write the fault record -/

/-- The faults of an issued line are the host's own (R205, R207). -/
theorem HostAgent.issueLine_fault_ne_coreError {a : HostAgent} (hf : a.fault = none) (line : Line) :
    (a.issueLine line).fault ≠ some .coreError := by
  have block : ∀ d blk, (a.issueBlock d blk).fault ≠ some .coreError := by
    intro d blk
    unfold issueBlock
    split <;> simp [hf]
  cases line with
  | ks | xf | word => simp [issueLine, hf]
  | enc blk | dec blk => exact block _ blk
  | session key =>
    simp only [issueLine, issueSession]
    split <;> simp [hf]

theorem HostAgent.issue_fault_ne_coreError {a : HostAgent} (clean : a.fault ≠ some .coreError) :
    a.issue.fault ≠ some .coreError := by
  cases hf : a.fault with
  | some f => rwa [issue_of_fault hf]
  | none =>
    cases hl : a.prog[a.pc]? with
    | none => rwa [issue_at_end hl]
    | some line =>
      rw [issue_line hf hl]
      exact issueLine_fault_ne_coreError hf line

/-- R81, R82, R83: a consistent response to a session or block line is OK, so it records nothing. -/
theorem HostAgent.absorb_fault_of_consistent {rom : Rom} {r : Response} (ok : r.consistent rom = true)
    (a : HostAgent) : (a.absorb r).fault = a.fault := by
  obtain ⟨purpose, word⟩ := r
  cases purpose with
  | raw => rfl
  | session k =>
    obtain ⟨-, schedule⟩ := Bool.and_eq_true_iff.mp ok
    obtain rfl : word = ksAnswer rom k := eq_of_beq schedule
    simp only [absorb, ksAnswer, rspStatus_ksResponse, if_true]
    split <;> rfl
  | block =>
    obtain ⟨-, block⟩ := Bool.and_eq_true_iff.mp ok
    have okStatus : rspStatus word = statusOk := by
      rw [show word = _ from eq_of_beq block, rspStatus_xfResponse]
    simp only [absorb, okStatus, if_true]

theorem HostAgent.take_fault_of_consistent {rom : Rom} {a b : HostAgent} (ok : a.consistent rom = true)
    (taken : a.take = some b) : b.fault = a.fault := by
  cases hf : a.fault with
  | some f =>
    cases (take_of_fault hf).symm.trans taken
    exact hf
  | none =>
    cases hr : a.responses with
    | nil =>
      cases (take_of_empty hr).symm.trans taken
      exact hf
    | cons r more =>
      obtain ⟨-, -, -, responses⟩ := consistent_iff.mp ok
      rw [take_response hf hr] at taken
      split at taken
      · cases taken
      · cases taken
        rw [absorb_fault_of_consistent (responses r (hr ▸ List.mem_cons_self)), hf]

theorem HostAgent.Moves.fault_ne_coreError {rom : Rom} {h : Nat} {inputs : List Input} {a b : HostAgent}
    (moved : a.Moves rom h inputs b) (ok : a.consistent rom = true) (clean : a.fault ≠ some .coreError) :
    b.fault ≠ some .coreError := by
  cases moved with
  | rests => exact clean
  | issues => exact issue_fault_ne_coreError clean
  | isServiced => rwa [serviced_fault]
  | takes _ taken => rwa [take_fault_of_consistent ok taken]
  | restarts => simp

/-- R205 to R208: of a host with a record a step moves at most the two queues, and those only in a service of its
requests. -/
theorem HostAgent.Moves.eq_or_serviced {rom : Rom} {h : Nat} {inputs : List Input} {a b : HostAgent} {f : HostFault}
    (moved : a.Moves rom h inputs b) (hf : a.fault = some f) (noReset : inputs.head? ≠ some .reset) :
    b = a ∨ inputs.head? = some (.serve h) ∧ b = a.serviced rom := by
  cases moved with
  | rests => exact .inl rfl
  | issues => exact .inl (issue_of_fault hf)
  | isServiced => exact .inr ⟨rfl, rfl⟩
  | takes _ taken => exact .inl (Option.some.inj (taken.symm.trans (take_of_fault hf)))
  | restarts => exact absurd rfl noReset

/-- R50: an input that names host `h` moves no other. -/
theorem HostAgent.Moves.eq_of_other {rom : Rom} {h k : Nat} {inputs : List Input} {a b : HostAgent} (other : h ≠ k)
    (moved : a.Moves rom k inputs b)
    (named : inputs.head? = some (.issue h) ∨ inputs.head? = some (.serve h) ∨ inputs.head? = some (.take h)) :
    b = a := by
  cases moved with
  | rests => rfl
  | issues | isServiced | takes | restarts => simp [other.symm] at named

end Sys2Proof.Machine

namespace Sys2Proof
open Machine

/-- Settles O49, from the reasons for which a step stops. -/
theorem faultOnlyWithoutTheHost : Obligations.FaultOnlyWithoutTheHost := by
  intro s
  refine ⟨fun fault => ?_, fun ⟨_, missing, named⟩ => step_of_missing_host missing named⟩
  obtain ⟨t, next⟩ | ⟨-, reason⟩ | ⟨refused, -⟩ := step_stops_cases s
  · cases fault.symm.trans next
  · exact reason
  · cases fault.symm.trans refused

/-- Settles O50, from the one response that a host cannot take. -/
theorem refusedOnlyOnTheUnusedStatus : Obligations.RefusedOnlyOnTheUnusedStatus := by
  intro s
  rw [step_refused_iff]
  constructor
  · rintro ⟨h, a, taken, ha, noRule⟩
    obtain ⟨hf, r, more, hr, unused⟩ := HostAgent.take_eq_none_iff.mp noRule
    exact ⟨h, a, r, more, taken, ha, hf, hr, unused⟩
  · rintro ⟨h, a, r, more, taken, ha, hf, hr, unused⟩
    exact ⟨h, a, taken, ha, HostAgent.take_eq_none_iff.mpr ⟨hf, r, more, hr, unused⟩⟩

/-- Settles O48: a consistent host holds only responses that have a rule, and only OK ones for its session lines. -/
theorem sessionLinesNeverMeetACoreError : Obligations.SessionLinesNeverMeetACoreError := by
  intro s ok
  obtain ⟨-, hosts⟩ := State.consistent_iff.mp ok
  refine ⟨fun r refused => ?_, fun t h a b next ha hb clean => ?_⟩
  · obtain ⟨h, a, -, ha, noRule⟩ := (step_refused_iff s).mp ⟨r, refused⟩
    exact HostAgent.take_ne_none_of_consistent (hosts a (List.mem_of_getElem? ha)) noRule
  · obtain ⟨b', hb', moved⟩ := step_moves_host next ha
    cases hb.symm.trans hb'
    exact moved.fault_ne_coreError (hosts a (List.mem_of_getElem? ha)) clean

/-- Settles O39: the moves of a host with a record. -/
theorem faultedHostTakesNoFurtherStep : Obligations.FaultedHostTakesNoFurtherStep := by
  intro s t h a f noReset next ha hf
  obtain ⟨b, hb, moved⟩ := step_moves_host next ha
  obtain rfl | ⟨served, rfl⟩ := moved.eq_or_serviced hf noReset
  · exact ⟨fun _ => hb, b, hb, hf, rfl, rfl, rfl, rfl, rfl, rfl⟩
  · exact ⟨fun notServed => absurd served notServed, _, hb, by simp [hf]⟩

/-- Settles O40: the input moves no host that it does not name, and adds none. -/
theorem hostsShareNothingThroughTheCore : Obligations.HostsShareNothingThroughTheCore := by
  intro s t h k other next named
  cases ha : s.hosts[k]? with
  | some a =>
    obtain ⟨b, hb, moved⟩ := step_moves_host next ha
    rw [hb, moved.eq_of_other other named]
  | none =>
    rw [Option.eq_none_iff_forall_ne_some]
    intro b hb
    obtain ⟨prog, connected, -⟩ := step_new_host next ha hb
    simp [connected] at named

end Sys2Proof
end

section
/-! Services commute: of one host they are one function applied twice, of two hosts they touch different ones (R50). -/

namespace Sys2Proof.Machine

/-- The effect of a service of host `h`, without the inputs. -/
def State.service (s : State) (h : Nat) : State := s.modifyHost h (HostAgent.serviced s.rom)

@[simp] theorem State.service_length (s : State) (h : Nat) : (s.service h).hosts.length = s.hosts.length :=
  List.length_modify _ _ _

theorem State.service_comm (s : State) (h k : Nat) : (s.service h).service k = (s.service k).service h := by
  by_cases same : h = k
  · rw [same]
  · exact congrArg (fun hosts => { s with hosts }) (List.modify_modify_ne _ _ s.hosts same)

/-- A run whose first input is a service: it goes on from the serviced state, or stops if the host is missing. -/
theorem run_serve_cons (s : State) (h n : Nat) (inputs : List Input) :
    core.run (n + 1) { s with inputs := .serve h :: inputs } =
      if h < s.hosts.length then core.run n { s.service h with inputs } else .fault .noSuchHost := by
  cases ha : s.hosts[h]? with
  | some a =>
    have inRange : h < s.hosts.length := (List.getElem?_eq_some_iff.mp ha).1
    have first : step { s with inputs := .serve h :: inputs } = _ := step_serve_host rfl ha
    rw [if_pos inRange, State.service, State.modifyHost_eq_set ha]
    exact run_of_next first n
  | none =>
    have missing := List.getElem?_eq_none_iff.mp ha
    have first : step { s with inputs := .serve h :: inputs } = _ := step_serve_missing rfl missing
    rw [if_neg missing.not_gt]
    exact run_of_fault first n

theorem run_serves_of_perm {hs ks : List Nat} (perm : hs.Perm ks) (rest : List Input) (s : State) :
    core.run hs.length { s with inputs := hs.map Input.serve ++ rest } =
      core.run ks.length { s with inputs := ks.map Input.serve ++ rest } := by
  induction perm generalizing s with
  | nil => rfl
  | cons h _ ih =>
    simp only [List.map_cons, List.cons_append, List.length_cons, run_serve_cons, ih]
  | swap h k hs =>
    simp only [List.map_cons, List.cons_append, List.length_cons, run_serve_cons, State.service_length,
      State.service_comm s h k]
    split <;> split <;> rfl
  | trans _ _ first second => exact (first s).trans (second s)

end Sys2Proof.Machine

namespace Sys2Proof
open Machine

/-- Settles O29, by induction on the permutation: its steps exchange neighbours, and neighbouring services commute. -/
theorem serviceOrderDoesNotMatter : Obligations.ServiceOrderDoesNotMatter :=
  fun s _ _ rest perm => run_serves_of_perm perm rest s

end Sys2Proof
end

section
/-! The host's steps, one line or one response at a time (R85, R86, R171, R172, R176, R205 to R207), and the inputs that
begin a host or everything anew (R215, R230). -/

namespace Sys2Proof.Machine

section
variable {s : State} {h : Nat} {a : HostAgent} {rest : List Input}

/-- The step of the input `issue h`, by the line that host `h` stands at. -/
theorem step_issue_line {line : Line} (hi : s.inputs = .issue h :: rest) (ha : s.hosts[h]? = some a)
    (hf : a.fault = none) (hl : a.prog[a.pc]? = some line) {b : HostAgent} (issued : a.issueLine line = b) :
    step s = .next { s with inputs := rest, hosts := s.hosts.set h b } := by
  rw [step_issue_eq hi ha, HostAgent.issue_line hf hl, issued]

/-- The step of the input `take h`, by the oldest response of host `h`. -/
theorem step_take_response {r : Response} {more : List Response} (hi : s.inputs = .take h :: rest)
    (ha : s.hosts[h]? = some a) (hf : a.fault = none) (hr : a.responses = r :: more)
    (rule : rspStatus r.word ≠ statusUnused) {b : HostAgent}
    (absorbed : { a with responses := more }.absorb r = b) :
    step s = .next { s with inputs := rest, hosts := s.hosts.set h b } :=
  step_take_eq hi ha (by rw [HostAgent.take_response hf hr, if_neg rule, absorbed])

/-- A step that takes an OK response. -/
theorem step_take_ok {r : Response} {more : List Response} (hi : s.inputs = .take h :: rest)
    (ha : s.hosts[h]? = some a) (hf : a.fault = none) (hr : a.responses = r :: more)
    (ok : rspStatus r.word = statusOk) {b : HostAgent} (absorbed : { a with responses := more }.absorb r = b) :
    step s = .next { s with inputs := rest, hosts := s.hosts.set h b } :=
  step_take_response hi ha hf hr (by rw [ok]; decide) absorbed

end

section
variable {a : HostAgent}

/-- A first record is the fault itself (R208). -/
theorem HostAgent.record_of_none (hf : a.fault = none) (f : HostFault) : a.record f = { a with fault := some f } := by
  rw [record, hf]
  rfl

theorem HostAgent.issueBlock_of_written {k1 k2 : Byte} (h1 : a.sk1 = some k1) (h2 : a.sk2 = some k2) (d : Direction)
    (blk : Byte) : a.issueBlock d blk = a.send .block (encode (blockInstr d k1 k2 blk)) := by
  have cells : a.subkeys = some (k1, k2) := subkeys_eq_some.mpr ⟨h1, h2⟩
  rw [issueBlock, cells]

theorem HostAgent.issueBlock_of_unwritten (cells : a.sk1 = none ∨ a.sk2 = none) (d : Direction) (blk : Byte) :
    a.issueBlock d blk = a.record .subkeyUnwritten := by
  have unwritten : a.subkeys = none := subkeys_eq_none.mpr cells
  rw [issueBlock, unwritten]

theorem HostAgent.absorb_session_ok {k : Key} {w : Word} (ok : rspStatus w = statusOk) (current : a.key = some k) :
    a.absorb { purpose := .session k, word := w } =
      { a with sk1 := some (rspDataHigh w), sk2 := some (rspDataLow w) } := by
  simp only [absorb, if_pos ok, if_pos current]

/-- Log entry 6. -/
theorem HostAgent.absorb_ended_session_ok {k : Key} {w : Word} (ok : rspStatus w = statusOk)
    (ended : a.key ≠ some k) :
    a.absorb { purpose := .session k, word := w } = a := by
  simp only [absorb, if_pos ok, if_neg ended]

theorem HostAgent.absorb_block_ok {w : Word} (ok : rspStatus w = statusOk) :
    a.absorb { purpose := .block, word := w } = { a with out := a.out ++ [.byte (rspDataLow w)] } := by
  simp only [absorb, if_pos ok]

/-- R206. -/
theorem HostAgent.absorb_error {r : Response} (hf : a.fault = none) (line : r.purpose ≠ .raw)
    (error : rspStatus r.word ≠ statusOk) : a.absorb r = { a with fault := some .coreError } := by
  rw [← record_of_none hf]
  obtain ⟨purpose, word⟩ := r
  cases purpose with
  | raw => exact absurd rfl line
  | session k => simp only [absorb, if_neg error]
  | block => simp only [absorb, if_neg error]

theorem HostAgent.absorb_raw {r : Response} (line : r.purpose = .raw) :
    a.absorb r = { a with out := a.out ++ [.response r.word] } := by
  simp only [absorb, line]

end

/-- R71: the request word of a key is the key, zeros above it. -/
theorem encode_ks_ofNat {key : Nat} (range : key < 1024) :
    encode (.ks (BitVec.ofNat 10 key)) = BitVec.ofNat 32 key := by
  apply BitVec.eq_of_toNat_eq
  rw [encode_ks_toNat, BitVec.toNat_ofNat, BitVec.toNat_ofNat]
  omega

/-- R85: zext_32. -/
theorem encode_ks_eq_setWidth (key : Key) : encode (.ks key) = key.setWidth 32 := by
  have below := key.isLt
  apply BitVec.eq_of_toNat_eq
  rw [encode_ks_toNat, BitVec.toNat_setWidth]
  omega

end Sys2Proof.Machine

namespace Sys2Proof
open Machine

/-- Settles O31: the line's host is the new session's, and its word is the key. -/
theorem sessionLineIssuesItsKeyRequest : Obligations.SessionLineIssuesItsKeyRequest := by
  intro s h a rest key hi ha hf hl range
  have issued : a.issueLine (.session key) = _ := HostAgent.issueSession_of_range a range
  rw [encode_ks_ofNat range] at issued
  exact step_issue_line hi ha hf hl issued

/-- Settles O32. -/
theorem outOfRangeKeyIsRejected : Obligations.OutOfRangeKeyIsRejected := by
  intro s h a rest key hi ha hf hl outside
  have issued : a.issueLine (.session key) = _ := HostAgent.issueSession_out_of_range a outside
  exact step_issue_line hi ha hf hl (issued.trans (HostAgent.record_of_none hf _))

/-- Settles O33: each direction's request has its own subkey order. -/
theorem blockLinesIssueTheirTransformRequest : Obligations.BlockLinesIssueTheirTransformRequest := by
  intro s h a rest k1 k2 blk hi ha hf h1 h2
  have issued : ∀ d, a.issueBlock d blk = _ := fun d => HostAgent.issueBlock_of_written h1 h2 d blk
  exact ⟨fun hl => step_issue_line hi ha hf hl (issued .encrypt),
    fun hl => step_issue_line hi ha hf hl (issued .decrypt)⟩

/-- Settles O34: either line stops at either unwritten cell. -/
theorem unwrittenSubkeyIsAHostFault : Obligations.UnwrittenSubkeyIsAHostFault := by
  intro s h a rest blk hi ha hf line cells
  have issued : ∀ d, a.issueBlock d blk = { a with fault := some .subkeyUnwritten } := fun d =>
    (HostAgent.issueBlock_of_unwritten cells d blk).trans (HostAgent.record_of_none hf _)
  obtain hl | hl := line
  · exact step_issue_line hi ha hf hl (issued .encrypt)
  · exact step_issue_line hi ha hf hl (issued .decrypt)

/-- Settles O35: a raw line sends its word, and the assembled words are the encoder's. -/
theorem rawLinesIssueTheirWord : Obligations.RawLinesIssueTheirWord := by
  rintro s h a rest w hi ha hf (⟨key, hl, rfl⟩ | ⟨blk, ska, skb, hl, rfl⟩ | hl)
  · rw [← encode_ks_eq_setWidth]
    exact step_issue_line hi ha hf hl rfl
  · exact step_issue_line hi ha hf hl rfl
  · exact step_issue_line hi ha hf hl rfl

/-- Settles O36. -/
theorem sessionResponseWritesBothCells : Obligations.SessionResponseWritesBothCells := by
  intro s h a rest k w more hi ha hf hr ok
  exact ⟨fun current => step_take_ok hi ha hf hr ok (HostAgent.absorb_session_ok ok current),
    fun ended => step_take_ok hi ha hf hr ok (HostAgent.absorb_ended_session_ok ok ended)⟩

/-- Settles O37. -/
theorem blockResponseAppendsItsByte : Obligations.BlockResponseAppendsItsByte := by
  intro s h a rest w more hi ha hf hr ok
  exact step_take_ok hi ha hf hr ok (HostAgent.absorb_block_ok ok)

/-- Settles O38: the two error codes are neither OK nor the unused STATUS. -/
theorem errorResponseFaultsOnlySessionLines : Obligations.ErrorResponseFaultsOnlySessionLines := by
  intro s h a rest r more hi ha hf hr
  refine ⟨fun line error => ?_, fun line rule => step_take_response hi ha hf hr rule (HostAgent.absorb_raw line)⟩
  have neither : ∀ st : BitVec 2, st = 0b01#2 ∨ st = 0b10#2 → st ≠ statusUnused ∧ st ≠ statusOk := by decide
  obtain ⟨rule, notOk⟩ := neither (rspStatus r.word) error
  exact step_take_response hi ha hf hr rule (HostAgent.absorb_error hf line notOk)

/-- Settles O41: every host starts again. -/
theorem resetEndsEverySession : Obligations.ResetEndsEverySession := by
  intro s rest hi
  exact ⟨s.resetInput, step_reset hi, s.resetInput_rom, congrArg List.tail hi, s.resetInput_hosts⟩

/-- Settles O43: a freshly started host is appended. -/
theorem hostJoinsAtItsStart : Obligations.HostJoinsAtItsStart := by
  intro s rest prog hi
  refine ⟨s.connectInput prog, step_connect hi, s.connectInput_rom prog, congrArg List.tail hi,
    fun k inRange => List.getElem?_append_left inRange, List.length_append, HostAgent.start prog,
    List.getElem?_concat_length, ?_⟩
  exact ⟨rfl, rfl, rfl, rfl, rfl, rfl, rfl, rfl, rfl⟩

/-- Settles O44: the host named is set to what it is. -/
theorem nothingToDoChangesNothing : Obligations.NothingToDoChangesNothing := by
  intro s h a rest ha
  refine ⟨fun hi atEnd => ?_, fun hi empty => ?_, fun hi empty => ?_, step_no_input⟩
  · rw [step_issue_eq hi ha, HostAgent.issue_at_end atEnd, hosts_set_same ha]
  · rw [step_take_eq hi ha (HostAgent.take_of_empty empty), hosts_set_same ha]
  · rw [step_serve_host hi ha, HostAgent.serviced_of_empty empty, hosts_set_same ha]

end Sys2Proof
end

section
/-! Runs of whole lines: issue, service and take in a row (R175, R176). -/

namespace Sys2Proof.Machine

theorem answerWord_encode (rom : Rom) (i : Instr) : answerWord rom (encode i) = instrAnswer rom i :=
  answerWord_of_ok (decode_encode i) rom

/-- A request sent with nothing in flight is serviced at once. -/
theorem HostAgent.serviced_send {b : HostAgent} (hq : b.requests = []) (hr : b.responses = []) (rom : Rom)
    (u : Purpose) (i : Instr) :
    (b.send u (encode i)).serviced rom =
      { b with pc := b.pc + 1, responses := [{ purpose := u, word := instrAnswer rom i }] } := by
  have sent : (b.send u (encode i)).requests = [{ purpose := u, word := encode i }] := by
    rw [send_requests, hq, List.nil_append]
  rw [serviced_of_requests sent, send_responses, hr, List.nil_append, Request.answered, answerWord_encode, send, ← hq]

/-- The answer to an instruction is taken when it is the only one. -/
theorem HostAgent.take_answer {b c : HostAgent} {rom : Rom} {u : Purpose} {i : Instr} (pc : Nat) (hf : b.fault = none)
    (hr : b.responses = []) (absorbed : { b with pc }.absorb { purpose := u, word := instrAnswer rom i } = c) :
    { b with pc, responses := [{ purpose := u, word := instrAnswer rom i }] }.take = some c := by
  have rule : rspStatus (instrAnswer rom i) ≠ statusUnused := (isResponse_iff.mp (isResponse_instrAnswer rom i)).1
  have taken := take_response (a := { b with pc, responses := [{ purpose := u, word := instrAnswer rom i }] }) hf rfl
  rw [hr] at absorbed
  rwa [if_neg rule, absorbed] at taken

/-- One line of a host with nothing in flight: its request is answered at once, and the answer taken. -/
theorem run_lineInputs {s : State} {h : Nat} {a b c : HostAgent} {u : Purpose} {i : Instr}
    (ha : s.hosts[h]? = some a) (issued : a.issue = b.send u (encode i)) (hf : b.fault = none)
    (hq : b.requests = []) (hr : b.responses = [])
    (absorbed : { b with pc := b.pc + 1 }.absorb { purpose := u, word := instrAnswer s.rom i } = c)
    (n : Nat) (rest : List Input) :
    core.run (n + 3) { s with inputs := lineInputs h ++ rest } =
      core.run n { s with inputs := rest, hosts := s.hosts.set h c } := by
  have inRange : h < s.hosts.length := (List.getElem?_eq_some_iff.mp ha).1
  have issue : step { s with inputs := .issue h :: .serve h :: .take h :: rest } = .next { s with
      inputs := .serve h :: .take h :: rest, hosts := s.hosts.set h (b.send u (encode i)) } := by
    rw [← issued]
    exact step_issue_eq rfl ha
  have serve : step { s with
        inputs := .serve h :: .take h :: rest, hosts := s.hosts.set h (b.send u (encode i)) } = .next { s with
      inputs := .take h :: rest
      hosts := s.hosts.set h
        { b with pc := b.pc + 1, responses := [{ purpose := u, word := instrAnswer s.rom i }] } } := by
    rw [step_serve_host rfl (List.getElem?_set_self inRange), HostAgent.serviced_send hq hr, List.set_set]
  have take : step { s with
        inputs := .take h :: rest
        hosts := s.hosts.set h
          { b with pc := b.pc + 1, responses := [{ purpose := u, word := instrAnswer s.rom i }] } } =
      .next { s with inputs := rest, hosts := s.hosts.set h c } := by
    rw [step_take_eq rfl (List.getElem?_set_self inRange) (HostAgent.take_answer _ hf hr absorbed), List.set_set]
  calc core.run (n + 3) { s with inputs := lineInputs h ++ rest }
    _ = _ := run_of_next issue (n + 2)
    _ = _ := run_of_next serve (n + 1)
    _ = _ := run_of_next take n

/-- R176: the answer to a session's request holds the key schedule of its key. -/
theorem HostAgent.absorb_ksAnswer {a : HostAgent} {key : Key} (current : a.key = some key) (rom : Rom) :
    a.absorb { purpose := .session key, word := ksAnswer rom key } =
      { a with sk1 := some (deriveSubkeys rom key).1, sk2 := some (deriveSubkeys rom key).2 } := by
  rw [ksAnswer, absorb_session_ok (rspStatus_ksResponse _ _) current, rspDataHigh_ksResponse, rspDataLow_ksResponse]

/-- R171, R172, R175: the answer to a block's request holds the driver's byte. -/
theorem HostAgent.absorb_blockAnswer (a : HostAgent) (rom : Rom) (d : Direction) (k1 k2 blk : Byte) :
    a.absorb { purpose := .block, word := instrAnswer rom (blockInstr d k1 k2 blk) } =
      { a with out := a.out ++ [.byte (cryptByte rom d k1 k2 blk)] } := by
  rw [blockInstr, instrAnswer, xfAnswer, absorb_block_ok (rspStatus_xfResponse _), rspDataLow_xfResponse, cryptByte]

@[simp] theorem HostAgent.issueLine_line (a : HostAgent) (d : Direction) (blk : Byte) :
    a.issueLine (d.line blk) = a.issueBlock d blk := by
  cases d <;> rfl

/-- A host in a session, with no record and nothing in flight. -/
structure HostAgent.Ready (a : HostAgent) (k1 k2 : Byte) : Prop where
  fault : a.fault = none
  requests : a.requests = []
  responses : a.responses = []
  sk1 : a.sk1 = some k1
  sk2 : a.sk2 = some k2

/-- A ready host's `enc` or `dec` line appends the driver's byte. -/
theorem run_blockLine {s : State} {h : Nat} {a : HostAgent} {k1 k2 : Byte} (ha : s.hosts[h]? = some a)
    (ready : a.Ready k1 k2) {d : Direction} {blk : Byte} (hl : a.prog[a.pc]? = some (d.line blk)) (n : Nat)
    (rest : List Input) :
    core.run (n + 3) { s with inputs := lineInputs h ++ rest } =
      core.run n { s with
        inputs := rest
        hosts := s.hosts.set h { a with pc := a.pc + 1, out := a.out ++ [.byte (cryptByte s.rom d k1 k2 blk)] } } := by
  have issued : a.issue = a.send .block (encode (blockInstr d k1 k2 blk)) := by
    rw [HostAgent.issue_line ready.fault hl, HostAgent.issueLine_line,
      HostAgent.issueBlock_of_written ready.sk1 ready.sk2]
  exact run_lineInputs ha issued ready.fault ready.requests ready.responses
    (HostAgent.absorb_blockAnswer _ s.rom d k1 k2 blk) n rest

/-- R175: the lines of a byte sequence, one after another. The state and the host vary, since every line appends
its byte. -/
theorem run_stream {h : Nat} {k1 k2 : Byte} (d : Direction) (rest : List Input) (input : List Byte) :
    ∀ (s : State) (a : HostAgent), s.hosts[h]? = some a → a.Ready k1 k2 → a.prog.drop a.pc = input.map d.line →
      core.run (3 * input.length)
          { s with inputs := (List.replicate input.length (lineInputs h)).flatten ++ rest } =
        .next { s with
          inputs := rest
          hosts := s.hosts.set h
            { a with
              pc := a.pc + input.length
              out := a.out ++ (cryptStream s.rom d k1 k2 input).map OutItem.byte } } := by
  induction input with
  | nil =>
    intro s a ha _ _
    have unchanged : { a with out := a.out ++ [] } = a := by rw [List.append_nil]
    have same : s.hosts.set h { a with out := a.out ++ [] } = s.hosts := by rw [unchanged, hosts_set_same ha]
    exact congrArg (fun hosts => Host.Outcome.next { s with inputs := rest, hosts }) same.symm
  | cons blk more ih =>
    intro s a ha ready lines
    have inRange : h < s.hosts.length := (List.getElem?_eq_some_iff.mp ha).1
    have line : a.prog[a.pc]? = some (d.line blk) := by
      rw [← List.head?_drop, lines, List.map_cons, List.head?_cons]
    have others : a.prog.drop (a.pc + 1) = more.map d.line := by
      rw [← List.tail_drop, lines, List.map_cons, List.tail_cons]
    have first := run_blockLine ha ready line (3 * more.length)
      ((List.replicate more.length (lineInputs h)).flatten ++ rest)
    have following := ih
      { s with
        hosts := s.hosts.set h { a with pc := a.pc + 1, out := a.out ++ [.byte (cryptByte s.rom d k1 k2 blk)] } }
      _ (List.getElem?_set_self inRange)
      ⟨ready.fault, ready.requests, ready.responses, ready.sk1, ready.sk2⟩ others
    have count : a.pc + 1 + more.length = a.pc + (more.length + 1) := by omega
    rw [List.set_set, List.append_assoc, List.singleton_append, count] at following
    rw [List.length_cons, List.replicate_succ, List.flatten_cons, List.append_assoc]
    exact first.trans following

end Sys2Proof.Machine

namespace Sys2Proof
open Machine

/-- Settles O53: the session's answer is that of the key the host now holds. -/
theorem sessionRunsToWrittenCells : Obligations.SessionRunsToWrittenCells := by
  intro s h a rest key ha hf hq hr hl range
  have issued : a.issue = _ := (HostAgent.issue_line hf hl).trans (HostAgent.issueSession_of_range a range)
  exact run_lineInputs ha issued hf hq hr (HostAgent.absorb_ksAnswer rfl s.rom) 0 rest

/-- Settles O54, by induction on the byte sequence. -/
theorem machineCarriesOutTheStream : Obligations.MachineCarriesOutTheStream :=
  fun input d s _ a rest _ _ ha hf hq hr h1 h2 => run_stream d rest input s a ha ⟨hf, hq, hr, h1, h2⟩

end Sys2Proof
end

section
/-! The assembler's operands (R85). -/

namespace Sys2Proof.Machine

section
variable {t : Token} {n w : Nat}

theorem fieldValue_of_lt (value : t.value = some n) (fits : n < 2 ^ w) :
    fieldValue w t = .ok (BitVec.ofNat w n) := by
  simp only [fieldValue, value, if_pos fits]

theorem fieldValue_of_ge (value : t.value = some n) (wide : 2 ^ w ≤ n) : fieldValue w t = .error .operandRange := by
  simp only [fieldValue, value, if_neg wide.not_gt]

/-- An operand that is a number is read or out of range, never malformed. -/
theorem fieldValue_cases (value : t.value = some n) (w : Nat) :
    fieldValue w t = .ok (BitVec.ofNat w n) ∨ fieldValue w t = .error .operandRange := by
  obtain fits | wide := Nat.lt_or_ge n (2 ^ w)
  · exact .inl (fieldValue_of_lt value fits)
  · exact .inr (fieldValue_of_ge value wide)

end

theorem assembleTokens_ks (k : Token) :
    assembleTokens [.word ['k', 's'], k] = (return some (.ks (← fieldValue 10 k))) := rfl

theorem assembleTokens_xf (b ka kb : Token) :
    assembleTokens [.word ['x', 'f'], b, .comma, ka, .comma, kb] =
      (return some (.xf (← fieldValue 8 b) (← fieldValue 8 ka) (← fieldValue 8 kb))) := rfl

end Sys2Proof.Machine

namespace Sys2Proof
open Machine

/-- Settles O55: the operands are read in order, and each is a number, so the first one out of range refuses the line. -/
theorem assemblerRefusesWideOperands : Obligations.AssemblerRefusesWideOperands := by
  intro k b ka kb nk nb na nc hk hb ha hc
  refine ⟨fun fits => ?_, fun wide => ?_, fun fitsB fitsA fitsC => ?_, fun wide => ?_⟩
  · rw [assembleTokens_ks, fieldValue_of_lt hk fits]
    rfl
  · rw [assembleTokens_ks, fieldValue_of_ge hk wide]
    rfl
  · rw [assembleTokens_xf, fieldValue_of_lt hb fitsB, fieldValue_of_lt ha fitsA, fieldValue_of_lt hc fitsC]
    rfl
  · rw [assembleTokens_xf]
    obtain wideB | wideA | wideC := wide
    · rw [fieldValue_of_ge hb wideB]
      rfl
    · rw [fieldValue_of_ge ha wideA]
      obtain e | e := fieldValue_cases hb 8 <;> rw [e] <;> rfl
    · rw [fieldValue_of_ge hc wideC]
      obtain e | e := fieldValue_cases hb 8 <;> obtain e' | e' := fieldValue_cases ha 8 <;> rw [e, e'] <;> rfl

end Sys2Proof
end
